-- ==== Sys2Proof/Word.lean ====
section
/-! DEFINITION. The word types of the machine (00_scope.md R9, R12): registers hold unsigned 8-bit and 16-bit
values; register numbers, key numbers and sprite heights are small indexes. -/

namespace Sys2Proof

/-- An 8-bit value: a V register, a timer, a memory cell (R9, `u8`). -/
abbrev Byte := BitVec 8

/-- A 16-bit value: PC, I, a return address, an opcode word (R9, `u16`). -/
abbrev Word := BitVec 16

/-- A 12-bit address field NNN (R10). -/
abbrev Addr12 := BitVec 12

/-- A 4-bit field: the sprite height N, or a field of an opcode word (R10). -/
abbrev Nibble := BitVec 4

/-- A register number 0..15: V0..VF (R20). -/
abbrev Reg := Fin 16

/-- A key number 0..15 (R36). -/
abbrev Key := Fin 16

/-- A byte as a 16-bit value, zero-extended (R9 `zext_16`, R72). -/
abbrev Byte.zext (b : Byte) : Word := b.setWidth 16

/-- A 12-bit address as a 16-bit value, zero-extended (R72). -/
abbrev Addr12.zext (a : Addr12) : Word := a.setWidth 16

end Sys2Proof
end

