-- ==== Sys2Proof/Config.lean ====
section
/-! DEFINITION. The fixed sizes (00_scope.md R7), the parameters that each machine fixes (R8) with their defaults,
and the free values (R216, R256). -/

namespace Sys2Proof

/-- `MEM_SIZE`: 4096 bytes (R7). -/
abbrev memSize : Nat := 4096

/-- `PROG_START`: the load address of a program and the initial PC (R7). -/
abbrev progStart : Nat := 0x200

/-- `PROG_MAX`: the longest ROM, 4096 - 0x200 bytes (R7). -/
abbrev progMax : Nat := memSize - progStart

/-- `STACK_DEPTH`: 16 return addresses (R7). -/
abbrev stackDepth : Nat := 16

/-- `SHIFT_SOURCE`: which register 8XY6 and 8XYE shift (R8, R149, R151). -/
inductive ShiftSource where
  | vx
  | vy
  deriving DecidableEq, Repr

/-- `UNKNOWN_POLICY`: an unknown opcode is fatal, or skipped with a diagnostic status (R8, R104). -/
inductive UnknownPolicy where
  | fatal
  | ignore
  deriving DecidableEq, Repr

/-- `ADDR_POLICY`: an address of 4096 or more faults, or is reduced mod 4096 (R8, R52, R53). -/
inductive AddrPolicy where
  | fault
  | wrap
  deriving DecidableEq, Repr

/-- `SYS_POLICY`: 0NNN is a no-op, or an unknown opcode (R8, R74, R121). -/
inductive SysPolicy where
  | ignore
  | unknown
  deriving DecidableEq, Repr

/-- `KEY_SELECT` (R8, R216): which pressed key the key wait takes, as plain data.
`lowest` is the spec's reference choice. `table rows` is any function of the 16 flags, given by its rows
(a row counts only if its key is pressed in its flags; flags with no such row take the lowest pressed key).
`free` is the unconstrained choice among the pressed keys, a fresh free value each time. -/
inductive KeySelect where
  | lowest
  | table (rows : List (Vector Bool 16 × Key))
  | free
  deriving DecidableEq, Repr

/-- The parameters of R8. They are fixed for a machine instance; no step and no host operation changes them. -/
structure Params where
  shiftSource      : ShiftSource
  unknownPolicy    : UnknownPolicy
  addrPolicy       : AddrPolicy
  sysPolicy        : SysPolicy
  ldregIncrementsI : Bool
  fontBase         : Nat
  fontData         : Vector Byte 80
  keySelect        : KeySelect
  deriving DecidableEq, Repr

/-- The constraint R8 puts on `FONT_BASE`: the 80 font bytes end at or below 0x200. -/
abbrev Params.wf (p : Params) : Prop := p.fontBase + 80 ≤ progStart

/-- Glyphs 0 to 7 of the default `FONT_DATA` (R37). -/
def fontGlyphs0to7 : Vector Byte 40 :=
  #v[0xF0, 0x90, 0x90, 0x90, 0xF0,  0x20, 0x60, 0x20, 0x20, 0x70,
     0xF0, 0x10, 0xF0, 0x80, 0xF0,  0xF0, 0x10, 0xF0, 0x10, 0xF0,
     0x90, 0x90, 0xF0, 0x10, 0x10,  0xF0, 0x80, 0xF0, 0x10, 0xF0,
     0xF0, 0x80, 0xF0, 0x90, 0xF0,  0xF0, 0x10, 0x20, 0x40, 0x40]

/-- Glyphs 8 to F of the default `FONT_DATA` (R37). -/
def fontGlyphs8toF : Vector Byte 40 :=
  #v[0xF0, 0x90, 0xF0, 0x90, 0xF0,  0xF0, 0x90, 0xF0, 0x10, 0xF0,
     0xF0, 0x90, 0xF0, 0x90, 0x90,  0xE0, 0x90, 0xE0, 0x90, 0xE0,
     0xF0, 0x80, 0x80, 0x80, 0xF0,  0xE0, 0x90, 0x90, 0x90, 0xE0,
     0xF0, 0x80, 0xF0, 0x80, 0xF0,  0xF0, 0x80, 0xF0, 0x80, 0x80]

/-- The defaults of R8. -/
def Params.default : Params where
  shiftSource      := .vx
  unknownPolicy    := .fatal
  addrPolicy       := .fault
  sysPolicy        := .ignore
  ldregIncrementsI := false
  fontBase         := 0x050
  fontData         := fontGlyphs0to7 ++ fontGlyphs8toF
  keySelect        := .lowest

/-- The random byte source (R256): the byte of the n-th draw. No body: nothing is known of it. -/
opaque Config.randomByte : Nat → Byte

/-- The unconstrained key choice (R216, `KeySelect.free`): a free number for the n-th draw, reduced among the
pressed keys where it is used. No body: nothing is known of it. -/
opaque Config.freeKeyPick : Nat → Nat

end Sys2Proof
end

