-- ==== Sys2Proof/Syntax.lean ====
section
/-! DEFINITION. The 35 instructions of 30_encoding.md R73, one constructor per row of opcode_table.json, in the
table's order, each with the fields of its row (R71): X and Y are register numbers, NN an 8-bit and NNN a 12-bit
immediate, N the sprite height. -/

namespace Sys2Proof

inductive Instr where
  /-- 0NNN, NNN not 0E0 and not 0EE (R121). -/
  | sys    (nnn : Addr12)
  /-- 00E0 (R192). -/
  | cls
  /-- 00EE (R122). -/
  | ret
  /-- 1NNN (R123). -/
  | jp     (nnn : Addr12)
  /-- 2NNN (R124). -/
  | call   (nnn : Addr12)
  /-- 3XNN (R125). -/
  | seImm  (x : Reg) (nn : Byte)
  /-- 4XNN (R126). -/
  | sneImm (x : Reg) (nn : Byte)
  /-- 5XY0 (R127). -/
  | seReg  (x y : Reg)
  /-- 6XNN (R141). -/
  | ldImm  (x : Reg) (nn : Byte)
  /-- 7XNN (R142). -/
  | addImm (x : Reg) (nn : Byte)
  /-- 8XY0 (R143). -/
  | ldReg  (x y : Reg)
  /-- 8XY1 (R144). -/
  | orReg  (x y : Reg)
  /-- 8XY2 (R145). -/
  | andReg (x y : Reg)
  /-- 8XY3 (R146). -/
  | xorReg (x y : Reg)
  /-- 8XY4 (R147). -/
  | addReg (x y : Reg)
  /-- 8XY5 (R148). -/
  | sub    (x y : Reg)
  /-- 8XY6 (R149). -/
  | shr    (x y : Reg)
  /-- 8XY7 (R150). -/
  | subn   (x y : Reg)
  /-- 8XYE (R151). -/
  | shl    (x y : Reg)
  /-- 9XY0 (R128). -/
  | sneReg (x y : Reg)
  /-- ANNN (R170). -/
  | ldI    (nnn : Addr12)
  /-- BNNN (R129). -/
  | jpV0   (nnn : Addr12)
  /-- CXNN (R152). -/
  | rnd    (x : Reg) (nn : Byte)
  /-- DXYN (R193). -/
  | drw    (x y : Reg) (n : Nibble)
  /-- EX9E (R210). -/
  | skp    (x : Reg)
  /-- EXA1 (R211). -/
  | sknp   (x : Reg)
  /-- FX07 (R217). -/
  | ldVxDt (x : Reg)
  /-- FX0A (R213). -/
  | ldVxK  (x : Reg)
  /-- FX15 (R218). -/
  | ldDtVx (x : Reg)
  /-- FX18 (R219). -/
  | ldStVx (x : Reg)
  /-- FX1E (R171). -/
  | addI   (x : Reg)
  /-- FX29 (R172). -/
  | ldF    (x : Reg)
  /-- FX33 (R173). -/
  | ldB    (x : Reg)
  /-- FX55 (R174). -/
  | ldStore (x : Reg)
  /-- FX65 (R175). -/
  | ldLoad  (x : Reg)
  deriving DecidableEq, Repr

end Sys2Proof
end

