-- ==== Sys2Proof/WellFormed.lean ====
section
/-! DEFINITION. Which terms of Instr stand for an instruction of R73. The fields' types carry their ranges; what is
left to check is that SYS does not take the two words of CLS and RET (R73 row 1, R74). -/

namespace Sys2Proof

/-- The instruction is one that some opcode word decodes to (under `SYS_POLICY = Ignore`). -/
def Instr.wf : Instr → Bool
  | .sys nnn => nnn ≠ 0x0E0#12 && nnn ≠ 0x0EE#12
  | .cls | .ret | .jp _ | .call _ | .seImm _ _ | .sneImm _ _ | .seReg _ _ | .ldImm _ _ | .addImm _ _
  | .ldReg _ _ | .orReg _ _ | .andReg _ _ | .xorReg _ _ | .addReg _ _ | .sub _ _ | .shr _ _ | .subn _ _
  | .shl _ _ | .sneReg _ _ | .ldI _ | .jpV0 _ | .rnd _ _ | .drw _ _ _ | .skp _ | .sknp _ | .ldVxDt _
  | .ldVxK _ | .ldDtVx _ | .ldStVx _ | .addI _ | .ldF _ | .ldB _ | .ldStore _ | .ldLoad _ => true

/-- The instruction is well formed and `SYS_POLICY` recognises it: 0NNN is an instruction only under `Ignore` (R74). -/
def Instr.recognised (p : SysPolicy) (i : Instr) : Bool :=
  match i, p with
  | .sys nnn, .ignore => (Instr.sys nnn).wf
  | .sys _, .unknown => false
  | i, _ => i.wf

end Sys2Proof
end

