-- ==== Sys2Proof/Decode.lean ====
section
/-! DEFINITION. The decoder of 30_encoding.md R74, total on every word and on every list of bytes, and the encoder
written from the patterns of R73. -/

namespace Sys2Proof

/-- Why bytes give no instruction. -/
inductive Reject where
  /-- The word is one that R74 maps to `Unknown` (R76). -/
  | unknownOpcode (op : Word)
  /-- Fewer than the two bytes of an instruction (R78). -/
  | truncated
  deriving DecidableEq, Repr

/-- The field `h` = op[15:12] (R71). -/
def opH (op : Word) : Nibble := op.extractLsb' 12 4

/-- The field `X` = op[11:8], a register number (R71). -/
def opX (op : Word) : Reg := (op.extractLsb' 8 4).toFin

/-- The field `Y` = op[7:4], a register number (R71). -/
def opY (op : Word) : Reg := (op.extractLsb' 4 4).toFin

/-- The field `N` = op[3:0] (R71). -/
def opN (op : Word) : Nibble := op.extractLsb' 0 4

/-- The field `NN` = op[7:0] (R71). -/
def opNN (op : Word) : Byte := op.extractLsb' 0 8

/-- The field `NNN` = op[11:0] (R71). -/
def opNNN (op : Word) : Addr12 := op.extractLsb' 0 12

/-- The family 0x0: CLS, RET, and SYS where the policy recognises it (R74). -/
def decodeFamily0 (p : SysPolicy) (op : Word) : Except Reject Instr :=
  if op = 0x00E0#16 then .ok .cls
  else if op = 0x00EE#16 then .ok .ret
  else match p with
    | .ignore => .ok (.sys (opNNN op))
    | .unknown => .error (.unknownOpcode op)

/-- The family 0x8, by its low nibble (R74). -/
def decodeFamily8 (op : Word) : Except Reject Instr :=
  match (opN op).toNat with
  | 0x0 => .ok (.ldReg (opX op) (opY op))
  | 0x1 => .ok (.orReg (opX op) (opY op))
  | 0x2 => .ok (.andReg (opX op) (opY op))
  | 0x3 => .ok (.xorReg (opX op) (opY op))
  | 0x4 => .ok (.addReg (opX op) (opY op))
  | 0x5 => .ok (.sub (opX op) (opY op))
  | 0x6 => .ok (.shr (opX op) (opY op))
  | 0x7 => .ok (.subn (opX op) (opY op))
  | 0xE => .ok (.shl (opX op) (opY op))
  | _ => .error (.unknownOpcode op)

/-- The family 0xE, by its low byte (R74). -/
def decodeFamilyE (op : Word) : Except Reject Instr :=
  match (opNN op).toNat with
  | 0x9E => .ok (.skp (opX op))
  | 0xA1 => .ok (.sknp (opX op))
  | _ => .error (.unknownOpcode op)

/-- The family 0xF, by its low byte (R74). -/
def decodeFamilyF (op : Word) : Except Reject Instr :=
  match (opNN op).toNat with
  | 0x07 => .ok (.ldVxDt (opX op))
  | 0x0A => .ok (.ldVxK (opX op))
  | 0x15 => .ok (.ldDtVx (opX op))
  | 0x18 => .ok (.ldStVx (opX op))
  | 0x1E => .ok (.addI (opX op))
  | 0x29 => .ok (.ldF (opX op))
  | 0x33 => .ok (.ldB (opX op))
  | 0x55 => .ok (.ldStore (opX op))
  | 0x65 => .ok (.ldLoad (opX op))
  | _ => .error (.unknownOpcode op)

/-- The decoder of R74: it reads the word and `SYS_POLICY`, nothing else. -/
def decode (p : SysPolicy) (op : Word) : Except Reject Instr :=
  match (opH op).toNat with
  | 0x0 => decodeFamily0 p op
  | 0x1 => .ok (.jp (opNNN op))
  | 0x2 => .ok (.call (opNNN op))
  | 0x3 => .ok (.seImm (opX op) (opNN op))
  | 0x4 => .ok (.sneImm (opX op) (opNN op))
  | 0x5 => if opN op = 0 then .ok (.seReg (opX op) (opY op)) else .error (.unknownOpcode op)
  | 0x6 => .ok (.ldImm (opX op) (opNN op))
  | 0x7 => .ok (.addImm (opX op) (opNN op))
  | 0x8 => decodeFamily8 op
  | 0x9 => if opN op = 0 then .ok (.sneReg (opX op) (opY op)) else .error (.unknownOpcode op)
  | 0xA => .ok (.ldI (opNNN op))
  | 0xB => .ok (.jpV0 (opNNN op))
  | 0xC => .ok (.rnd (opX op) (opNN op))
  | 0xD => .ok (.drw (opX op) (opY op) (opN op))
  | 0xE => decodeFamilyE op
  | _ => decodeFamilyF op

/-- Two bytes as a big-endian word, the byte of the lower address high (R54, R56). -/
def beWord (hi lo : Byte) : Word := hi ++ lo

/-- The high byte of a word: the byte stored at the lower address (R56). -/
def hiByte (op : Word) : Byte := op.extractLsb' 8 8

/-- The low byte of a word: the byte stored at the higher address (R56). -/
def loByte (op : Word) : Byte := op.extractLsb' 0 8

/-- Decoding from a list of bytes: the instruction and the bytes after it, or the reason there is none. -/
def decodeBytes (p : SysPolicy) : List Byte → Except Reject (Instr × List Byte)
  | hi :: lo :: rest =>
    match decode p (beWord hi lo) with
    | .ok i => .ok (i, rest)
    | .error e => .error e
  | [_] => .error .truncated
  | [] => .error .truncated

/-- A register number as a 4-bit field. -/
def regBits (x : Reg) : Nibble := BitVec.ofFin x

/-- A word of the form hNNN (R71). -/
def wordNNN (h : Nibble) (nnn : Addr12) : Word := h ++ nnn

/-- A word of the form hXNN (R71). -/
def wordXNN (h : Nibble) (x : Reg) (nn : Byte) : Word := h ++ (regBits x ++ nn : Addr12)

/-- A word of the form hXYN (R71). -/
def wordXYN (h : Nibble) (x y : Reg) (n : Nibble) : Word := h ++ (regBits x ++ (regBits y ++ n : Byte) : Addr12)

/-- The encoder: the word of each instruction, from the patterns of R73. -/
def encode : Instr → Word
  | .sys nnn => wordNNN 0x0 nnn
  | .cls => 0x00E0
  | .ret => 0x00EE
  | .jp nnn => wordNNN 0x1 nnn
  | .call nnn => wordNNN 0x2 nnn
  | .seImm x nn => wordXNN 0x3 x nn
  | .sneImm x nn => wordXNN 0x4 x nn
  | .seReg x y => wordXYN 0x5 x y 0x0
  | .ldImm x nn => wordXNN 0x6 x nn
  | .addImm x nn => wordXNN 0x7 x nn
  | .ldReg x y => wordXYN 0x8 x y 0x0
  | .orReg x y => wordXYN 0x8 x y 0x1
  | .andReg x y => wordXYN 0x8 x y 0x2
  | .xorReg x y => wordXYN 0x8 x y 0x3
  | .addReg x y => wordXYN 0x8 x y 0x4
  | .sub x y => wordXYN 0x8 x y 0x5
  | .shr x y => wordXYN 0x8 x y 0x6
  | .subn x y => wordXYN 0x8 x y 0x7
  | .shl x y => wordXYN 0x8 x y 0xE
  | .sneReg x y => wordXYN 0x9 x y 0x0
  | .ldI nnn => wordNNN 0xA nnn
  | .jpV0 nnn => wordNNN 0xB nnn
  | .rnd x nn => wordXNN 0xC x nn
  | .drw x y n => wordXYN 0xD x y n
  | .skp x => wordXNN 0xE x 0x9E
  | .sknp x => wordXNN 0xE x 0xA1
  | .ldVxDt x => wordXNN 0xF x 0x07
  | .ldVxK x => wordXNN 0xF x 0x0A
  | .ldDtVx x => wordXNN 0xF x 0x15
  | .ldStVx x => wordXNN 0xF x 0x18
  | .addI x => wordXNN 0xF x 0x1E
  | .ldF x => wordXNN 0xF x 0x29
  | .ldB x => wordXNN 0xF x 0x33
  | .ldStore x => wordXNN 0xF x 0x55
  | .ldLoad x => wordXNN 0xF x 0x65

/-- The instruction the decoder reads from an opcode-table word of `nbits` bits (the bits above are 0), under the
default parameters: the word's two bytes, laid out big-endian, given to `decodeBytes`. -/
def decodeTableWord (nbits w : Nat) : Option Instr :=
  let op : Word := BitVec.ofNat 16 (w % 2 ^ nbits)
  match decodeBytes Params.default.sysPolicy [hiByte op, loByte op] with
  | .ok (i, _) => some i
  | .error _ => none

end Sys2Proof
end

