-- ==== Sys2Proof/Machine/State.lean ====
section
/-! DEFINITION. The state of the machine (10_state.md), the reasons a step can stop, and the state after reset
(R43). State is plain data. Its last three fields are the model's own: the parameters (log 1), the status of the
latest step (log 2) and the counter of the free values drawn (log 4). -/

namespace Sys2Proof.Machine

/-- The kinds of R232, in the order of their ordinals 0 to 4. -/
inductive FaultKind where
  /-- An access at an address of 4096 or more under `ADDR_POLICY = Fault`. -/
  | addressingError
  /-- A call with 16 entries on the stack. -/
  | stackOverflow
  /-- A return with an empty stack. -/
  | stackUnderflow
  /-- A word the decoder maps to `Unknown`, under `UNKNOWN_POLICY = Fatal`. -/
  | unknownOpcode
  /-- A ROM longer than 3584 bytes: a failed load, never a step's fault (R232, R272). -/
  | programTooLarge
  deriving DecidableEq, Repr

/-- The ordinal of a fault kind (R232). -/
def FaultKind.code : FaultKind → Nat
  | .addressingError => 0
  | .stackOverflow => 1
  | .stackUnderflow => 2
  | .unknownOpcode => 3
  | .programTooLarge => 4

/-- The fault record (R231): the kind, the address of the failing instruction, its word (absent when the fetch
faulted) and the out-of-range address (absent unless the kind is AddressingError). -/
structure FaultRecord where
  kind   : FaultKind
  pc     : Word
  opcode : Option Word
  addr   : Option Nat
  deriving DecidableEq, Repr

/-- The interpreter mode (R39). -/
inductive Mode where
  | running
  /-- The key wait: `x` is the register the pending FX0A will write. -/
  | awaitingKey (x : Reg)
  deriving DecidableEq, Repr

/-- What a step returns (R13). -/
inductive Status where
  | ok
  | blocked
  | ignored (op pc : Word)
  | faulted (r : FaultRecord)
  deriving DecidableEq, Repr

/-- Memory: the cells that differ from what reset leaves, addresses strictly rising (`Memory.wf` in
Machine/Ops.lean). An address with no cell reads as `Memory.background`. -/
abbrev Memory := List Host.Cell

/-- The display buffer: 32 rows of 64 pixels, `fb[y][x]`, true is on (R35). -/
abbrev FrameBuffer := Vector (Vector Bool 64) 32

/-- The state of the machine. -/
structure State where
  /-- V0..VF (R20). -/
  v      : Vector Byte 16
  /-- The address register I (R24). -/
  i      : Word
  /-- The program counter (R25). -/
  pc     : Word
  /-- The call stack, head = top (R28). -/
  stack  : List Word
  /-- The delay timer (R30). -/
  dt     : Byte
  /-- The sound timer (R31). -/
  st     : Byte
  /-- The 4096 bytes of memory (R33). -/
  mem    : Memory
  /-- The display buffer (R35). -/
  fb     : FrameBuffer
  /-- The key flags, written by the host only (R36). -/
  keys   : Vector Bool 16
  /-- The mode (R39). -/
  mode   : Mode
  /-- The fault status (R40). -/
  fault  : Option FaultRecord
  /-- The model's own: the parameters of R8, constant (log 1). -/
  params : Params
  /-- The model's own: what the latest step returned (log 2). -/
  status : Option Status
  /-- The model's own: how many free values have been drawn (log 4). -/
  draws  : Nat
  deriving DecidableEq, Repr

/-- Why the machine stops. -/
inductive Fault where
  /-- Raised by a step of a machine whose fault status already holds the record `r`: the step changes no state and
  returns `Faulted(r)` (R100, R235). The step that first faults answers the next state, which holds `r` (log 3).
  Safe. -/
  | faulted (r : FaultRecord)
  deriving DecidableEq, Repr

/-- Why an instruction has no meaning. -/
inductive Refusal where
  /-- Raised by a refused arm of `exec` only; no arm of this model is refused. Safe. -/
  | notModelled (mnemonic : String)
  deriving DecidableEq, Repr

/-- The outcome of a step or of an instruction. -/
abbrev Outcome := Host.Outcome State Fault Refusal

/-- Every pixel off. -/
def FrameBuffer.blank : FrameBuffer := Vector.replicate 32 (Vector.replicate 64 false)

/-- The machine after a reset with an empty ROM, for the parameters `p` (R43, R270). Memory lists nothing: its
background is the font at FONT_BASE and 0x00 elsewhere. -/
def State.initial (p : Params) : State where
  v      := Vector.replicate 16 0
  i      := 0
  pc     := 0x200
  stack  := []
  dt     := 0
  st     := 0
  mem    := []
  fb     := FrameBuffer.blank
  keys   := Vector.replicate 16 false
  mode   := .running
  fault  := none
  params := p
  status := none
  draws  := 0

/-- The machine right after reset, with the default parameters of R8. -/
def State.reset : State := State.initial Params.default

end Sys2Proof.Machine
end

