-- ==== Sys2Proof/Machine/Ops.lean ====
section
/-! DEFINITION. The named operations over registers and memory (20_memory.md), and the ways a step ends
(40_cycle.md R105, R106): normally, blocked, or by a fault. -/

namespace Sys2Proof.Machine

/-! ### Registers -/

/-- VF, the flag register (R22). -/
abbrev vF : Reg := 15

/-- V0, the register JP V0 adds (R129). -/
abbrev v0 : Reg := 0

/-- `V[x]` (R11). -/
def State.getV (s : State) (x : Reg) : Byte := s.v[x]

/-- `V[x] <- b` (R11). -/
def State.setV (s : State) (x : Reg) (b : Byte) : State := { s with v := s.v.set x b }

/-- `I <- a`. -/
def State.setI (s : State) (a : Word) : State := { s with i := a }

/-- `PC <- a`. -/
def State.setPc (s : State) (a : Word) : State := { s with pc := a }

/-- Replaces the call stack. -/
def State.setStack (s : State) (l : List Word) : State := { s with stack := l }

/-- `DT <- b`. -/
def State.setDt (s : State) (b : Byte) : State := { s with dt := b }

/-- `ST <- b`. -/
def State.setSt (s : State) (b : Byte) : State := { s with st := b }

/-- Replaces the memory. -/
def State.setMem (s : State) (m : Memory) : State := { s with mem := m }

/-- Replaces the display buffer. -/
def State.setFb (s : State) (f : FrameBuffer) : State := { s with fb := f }

/-- Replaces the key flags. -/
def State.setKeys (s : State) (k : Vector Bool 16) : State := { s with keys := k }

/-- Replaces the mode. -/
def State.setMode (s : State) (m : Mode) : State := { s with mode := m }

/-- Records a fault. -/
def State.setFault (s : State) (r : FaultRecord) : State := { s with fault := some r }

/-- Records what the step returns (R13). -/
def State.setStatus (s : State) (r : Status) : State := { s with status := some r }

/-- Counts one free value drawn. -/
def State.countDraw (s : State) : State := { s with draws := s.draws + 1 }

/-- `V[k] <- b0`, `V[k+1] <- b1`, ... in this order (R175). -/
def setVsFrom : Nat → List Byte → State → State
  | _, [], s => s
  | k, b :: bs, s => setVsFrom (k + 1) bs (s.setV (Fin.ofNat 16 k) b)

/-- The values of V0..Vx, V0 first (R174). -/
def State.firstVs (s : State) (x : Reg) : List Byte := s.v.toList.take (x.val + 1)

/-! ### Memory -/

/-- What an unlisted address reads as: the reset contents without a ROM, the font at FONT_BASE and 0x00 elsewhere
(R43, R37, log 7). -/
def Memory.background (p : Params) (a : Nat) : Byte :=
  if h : p.fontBase ≤ a ∧ a < p.fontBase + 80 then p.fontData[a - p.fontBase]'(by omega) else 0

/-- The byte at an address. -/
def Memory.read (p : Params) : Memory → Nat → Byte
  | [], a => Memory.background p a
  | c :: m, a => if a = c.1 then c.2 else Memory.read p m a

/-- The cells without the one at address `a`. -/
def Memory.erase (a : Nat) : Memory → Memory
  | [] => []
  | c :: m => if a = c.1 then m else c :: Memory.erase a m

/-- The cells with `b` at address `a`, in order. -/
def Memory.insert (a : Nat) (b : Byte) : Memory → Memory
  | [] => [(a, b)]
  | c :: m =>
    if a < c.1 then (a, b) :: c :: m
    else if a = c.1 then (a, b) :: m
    else c :: Memory.insert a b m

/-- Writes one byte, keeping the canonical form: a byte equal to the background is not listed. -/
def Memory.write (p : Params) (m : Memory) (a : Nat) (b : Byte) : Memory :=
  if b = Memory.background p a then Memory.erase a m else Memory.insert a b m

/-- The canonical form: addresses strictly rising and below 4096, no cell equal to its background. -/
abbrev Memory.wf (p : Params) (m : Memory) : Prop :=
  m.Pairwise (fun c d => c.1 < d.1) ∧ ∀ c ∈ m, c.1 < memSize ∧ c.2 ≠ Memory.background p c.1

/-- The cell a natural-number address names, or the AddressingError it raises (R52, R53). -/
def resolveAddr (p : Params) (a : Nat) : Except Nat Nat :=
  match p.addrPolicy with
  | .fault => if a < memSize then .ok a else .error a
  | .wrap => .ok (a % memSize)

/-- `MemRead(a, 1)` (R52): the byte, or the address of the AddressingError. -/
def State.memRead (s : State) (a : Nat) : Except Nat Byte :=
  match resolveAddr s.params a with
  | .ok c => .ok (Memory.read s.params s.mem c)
  | .error e => .error e

/-- `MemWrite(a, 1, b)` (R53): the state after, or the address of the AddressingError. -/
def State.memWrite (s : State) (a : Nat) (b : Byte) : Except Nat State :=
  match resolveAddr s.params a with
  | .ok c => .ok (s.setMem (Memory.write s.params s.mem c b))
  | .error e => .error e

/-- Reads `n` bytes at `a`, `a + 1`, ... in this order (R58, R234). -/
def loadBytes (s : State) : Nat → Nat → Except Nat (List Byte)
  | _, 0 => .ok []
  | a, n + 1 =>
    match s.memRead a with
    | .error e => .error e
    | .ok b =>
      match loadBytes s (a + 1) n with
      | .error e => .error e
      | .ok bs => .ok (b :: bs)

/-- Writes the bytes at `a`, `a + 1`, ... in this order (R58, R234). -/
def storeBytes : Nat → List Byte → State → Except Nat State
  | _, [], s => .ok s
  | a, b :: bs, s =>
    match s.memWrite a b with
    | .error e => .error e
    | .ok s' => storeBytes (a + 1) bs s'

/-- `Fetch(a)` (R54): the big-endian word at `a` and `a + 1`, or the address of the AddressingError. -/
def fetch (s : State) (a : Word) : Except Nat Word :=
  match s.memRead a.toNat with
  | .error e => .error e
  | .ok hi =>
    match s.memRead (a.toNat + 1) with
    | .error e => .error e
    | .ok lo => .ok (beWord hi lo)

/-- The host's bulk write `load(offset, bytes)` (R55): not affected by `ADDR_POLICY`. -/
def State.load (s : State) (offset : Nat) (bytes : List Byte) : Except FaultKind State :=
  if offset + bytes.length > memSize then .error .addressingError
  else
    match storeBytes offset bytes s with
    | .ok s' => .ok s'
    | .error _ => .error .addressingError

/-! ### The program counter -/

/-- The word after the next one: fetch's advance, and a skip (R102, R120). -/
def nextPc (a : Word) : Word := a + 2

/-- PC without fetch's advance: the address of the instruction that executes (R25, R213). -/
def instrPc (a : Word) : Word := a - 2

/-- Skips the next instruction if `c` holds (R120). -/
def skipIf (c : Bool) (s : State) : State := if c then s.setPc (nextPc s.pc) else s

/-! ### How a step ends -/

/-- The instruction ends normally: the step returns `Ok` (R105). -/
def finish (s : State) : Outcome := .next (s.setStatus .ok)

/-- The instruction ends by `block`: the step returns `Blocked` (R105). -/
def block (s : State) : Outcome := .next (s.setStatus .blocked)

/-- Taking a fault, `halt(m, k, a, op, e)` of R109: on the state before the step, the only change is the record
(R106), and the step returns `Faulted`. -/
def halt (k : FaultKind) (a : Word) (op : Option Word) (e : Option Nat) (s : State) : Outcome :=
  .next ((s.setFault ⟨k, a, op, e⟩).setStatus (.faulted ⟨k, a, op, e⟩))

/-- `raise k(e)` in the body of `ins`, run on the state after the fetch: the fetch's advance is undone and the
fault is taken at the instruction's own address with its own word (R106). The body passes the state it was given,
so none of its writes is kept. -/
def raise (k : FaultKind) (ins : Instr) (e : Option Nat) (s : State) : Outcome :=
  halt k (instrPc s.pc) (some (encode ins)) e (s.setPc (instrPc s.pc))

/-- An unknown opcode `op` at PC, on the state before the step (R104). -/
def unknownOpcode (op : Word) (s : State) : Outcome :=
  match s.params.unknownPolicy with
  | .fatal => halt .unknownOpcode s.pc (some op) none s
  | .ignore => .next ((s.setPc (nextPc s.pc)).setStatus (.ignored op s.pc))

end Sys2Proof.Machine
end

