-- ==== Sys2Proof/Machine/Operands.lean ====
section
/-! DEFINITION. The operand forms beside a register and an immediate: the shift source, the address `I + k`, the font
glyph address, and the two reads of the key flags. -/

namespace Sys2Proof.Machine

/-- The operand of 8XY6 and 8XYE under `SHIFT_SOURCE` (R149, R151). -/
def shiftOperand (x y : Reg) (s : State) : Byte :=
  match s.params.shiftSource with
  | .vx => s.getV x
  | .vy => s.getV y

/-- The effective address of byte 0 of a transfer at I, a natural number: byte k is at this plus k
(43_memory_index.md). -/
def baseAddr (s : State) : Nat := s.i.toNat

/-- I after FX55 or FX65: unchanged, or `I + X + 1` under `LDREG_INCREMENTS_I` (R174, R175). -/
def advanceI (x : Reg) (s : State) : State :=
  if s.params.ldregIncrementsI then s.setI (s.i + BitVec.ofNat 16 (x.val + 1)) else s

/-- The address of the glyph of the low nibble of a value: `FONT_BASE + 5 * (v mod 16)` (R172). -/
def glyphAddr (p : Params) (b : Byte) : Word := BitVec.ofNat 16 (p.fontBase + 5 * (b.toNat % 16))

/-- Sixteen key numbers, lowest first. -/
def allKeys : List Key := [0, 1, 2, 3, 4, 5, 6, 7, 8, 9, 10, 11, 12, 13, 14, 15]

/-- `is_pressed(k)`: a number of 16 or more names no key and is not pressed (R210, R212, R252). -/
def keyPressed (keys : Vector Bool 16) (k : Nat) : Bool :=
  if h : k < 16 then keys[k] else false

/-- The pressed keys, lowest first. -/
def pressedKeys (keys : Vector Bool 16) : List Key := allKeys.filter (fun k => keyPressed keys k.val)

/-- The choice of `KeySelect.table`: the first row for these flags whose key is pressed, else the lowest pressed
key (R216). -/
def tableChoice (rows : List (Vector Bool 16 × Key)) (keys : Vector Bool 16) : Option Key :=
  match rows.find? (fun r => decide (r.1 = keys) && keyPressed keys r.2.val) with
  | some r => some r.2
  | none => (pressedKeys keys).head?

/-- The choice of `KeySelect.free`: the pressed key that the free number `n` picks (R216). -/
def freeChoice (n : Nat) (keys : Vector Bool 16) : Option Key :=
  (pressedKeys keys)[n % (pressedKeys keys).length]?

/-- `KEY_SELECT` (R216, R252 `any_pressed`): none when no key is pressed, else some pressed key. -/
def anyPressed (s : State) : Option Key :=
  match s.params.keySelect with
  | .lowest => (pressedKeys s.keys).head?
  | .table rows => tableChoice rows s.keys
  | .free => freeChoice (Config.freeKeyPick s.draws) s.keys

end Sys2Proof.Machine
end

