-- ==== Sys2Proof/Machine/ControlFlow.lean ====
section
/-! DEFINITION. The control flow instructions (41_control_flow.md). In each, PC already holds the instruction's
address plus 2 (R102). -/

namespace Sys2Proof.Machine

/-- SYS addr, 0NNN (R121): no operation. -/
def execSys (_nnn : Addr12) (s : State) : Outcome := finish s

/-- RET, 00EE (R122). -/
def execRet (s : State) : Outcome :=
  match s.stack with
  | [] => raise .stackUnderflow .ret none s
  | a :: rest => finish ((s.setStack rest).setPc a)

/-- JP addr, 1NNN (R123). -/
def execJp (nnn : Addr12) (s : State) : Outcome := finish (s.setPc (Addr12.zext nnn))

/-- CALL addr, 2NNN (R124): the return address is PC, the address after the call. -/
def execCall (nnn : Addr12) (s : State) : Outcome :=
  if s.stack.length ≥ stackDepth then raise .stackOverflow (.call nnn) none s
  else finish ((s.setStack (s.pc :: s.stack)).setPc (Addr12.zext nnn))

/-- SE Vx, byte, 3XNN (R125). -/
def execSeImm (x : Reg) (nn : Byte) (s : State) : Outcome := finish (skipIf (s.getV x == nn) s)

/-- SNE Vx, byte, 4XNN (R126). -/
def execSneImm (x : Reg) (nn : Byte) (s : State) : Outcome := finish (skipIf (s.getV x != nn) s)

/-- SE Vx, Vy, 5XY0 (R127). -/
def execSeReg (x y : Reg) (s : State) : Outcome := finish (skipIf (s.getV x == s.getV y) s)

/-- SNE Vx, Vy, 9XY0 (R128). -/
def execSneReg (x y : Reg) (s : State) : Outcome := finish (skipIf (s.getV x != s.getV y) s)

/-- JP V0, addr, BNNN (R129). -/
def execJpV0 (nnn : Addr12) (s : State) : Outcome :=
  finish (s.setPc (Addr12.zext nnn + Byte.zext (s.getV v0)))

end Sys2Proof.Machine
end

