-- ==== Sys2Proof/Machine/Flags.lean ====
section
/-! DEFINITION. The flag computations: every value an instruction writes into VF beside its result (R22, R140). Each
is exactly 0 or 1. -/

namespace Sys2Proof.Machine

/-- A flag as a byte: exactly 0 or 1 (R140). -/
def flagByte (c : Bool) : Byte := if c then 1 else 0

/-- Carry of `a + b`: 1 iff the sum exceeds 255 (R147). -/
def carryFlag (a b : Byte) : Byte := flagByte (decide (a.toNat + b.toNat > 255))

/-- No borrow of `a - b`: 1 iff `a >= b` (R148, R150). -/
def noBorrowFlag (a b : Byte) : Byte := flagByte (decide (a.toNat ≥ b.toNat))

/-- The bit a right shift by 1 shifts out, bit 0 (R149). -/
def shiftedOutRight (b : Byte) : Byte := flagByte (b.getLsbD 0)

/-- The bit a left shift by 1 shifts out, bit 7 (R151). -/
def shiftedOutLeft (b : Byte) : Byte := flagByte (b.getLsbD 7)

/-- The collision flag of a draw (R195). -/
def collisionFlag (hit : Bool) : Byte := flagByte hit

/-- Writes the result into V[x], then the flag into VF: with x = F, VF ends holding the flag (R23). -/
def writeResultAndFlag (x : Reg) (result flag : Byte) (s : State) : State :=
  (s.setV x result).setV vF flag

end Sys2Proof.Machine
end

