-- ==== Sys2Proof/Machine/Display.lean ====
section
/-! DEFINITION. The display buffer's operations and the display instructions (44_display.md). -/

namespace Sys2Proof.Machine

/-- The pixel at column `x` mod 64 and row `y` mod 32 (R35, R194). -/
def pixel (f : FrameBuffer) (x y : Nat) : Bool :=
  (f[y % 32]'(Nat.mod_lt y (by decide)))[x % 64]'(Nat.mod_lt x (by decide))

/-- The buffer with the pixel at column `x` mod 64 and row `y` mod 32 set to `b`. -/
def setPixel (f : FrameBuffer) (x y : Nat) (b : Bool) : FrameBuffer :=
  f.set (y % 32) ((f[y % 32]'(Nat.mod_lt y (by decide))).set (x % 64) b (Nat.mod_lt x (by decide)))
    (Nat.mod_lt y (by decide))

/-- The buffer under a draw, and whether a pixel has been turned off so far (R193). -/
abbrev Canvas := FrameBuffer × Bool

/-- Toggles one pixel; turning an on pixel off is a collision (R193, R195). -/
def blitPixel (x y : Nat) (c : Canvas) : Canvas :=
  (setPixel c.1 x y (!pixel c.1 x y), c.2 || pixel c.1 x y)

/-- Blits the bits of one sprite row at the listed column offsets: bit 7 is the leftmost pixel (R191, R193). -/
def blitRow (row : Byte) (x0 y : Nat) : List Nat → Canvas → Canvas
  | [], c => c
  | k :: ks, c => blitRow row x0 y ks (if row.getLsbD (7 - k) then blitPixel (x0 + k) y c else c)

/-- Blits the sprite rows from row `y` down (R193). -/
def blitRows (x0 : Nat) : Nat → List Byte → Canvas → Canvas
  | _, [], c => c
  | y, row :: rows, c => blitRows x0 (y + 1) rows (blitRow row x0 y [0, 1, 2, 3, 4, 5, 6, 7] c)

/-- `draw(x, y, sprite_bytes) -> collided` (R190), as the new buffer and the collision. -/
def drawSprite (f : FrameBuffer) (x0 y0 : Nat) (rows : List Byte) : Canvas := blitRows x0 y0 rows (f, false)

/-- CLS, 00E0 (R192). -/
def execCls (s : State) : Outcome := finish (s.setFb FrameBuffer.blank)

/-- The effect of DRW once its sprite rows are read (R193). -/
def drawAt (x y : Reg) (rows : List Byte) (s : State) : State :=
  let c := drawSprite s.fb ((s.getV x).toNat % 64) ((s.getV y).toNat % 32) rows
  (s.setFb c.1).setV vF (collisionFlag c.2)

/-- DRW Vx, Vy, nibble, DXYN (R193): VF = collision, written after every pixel. -/
def execDrw (x y : Reg) (n : Nibble) (s : State) : Outcome :=
  match loadBytes s (baseAddr s) n.toNat with
  | .ok rows => finish (drawAt x y rows s)
  | .error e => raise .addressingError (.drw x y n) (some e) s

end Sys2Proof.Machine
end

