-- ==== Sys2Proof/Machine/InputTimers.lean ====
section
/-! DEFINITION. The input and timer instructions, and the key-resume step (45_input_timers.md). -/

namespace Sys2Proof.Machine

/-- SKP Vx, EX9E (R210). -/
def execSkp (x : Reg) (s : State) : Outcome := finish (skipIf (keyPressed s.keys (s.getV x).toNat) s)

/-- SKNP Vx, EXA1 (R211). -/
def execSknp (x : Reg) (s : State) : Outcome := finish (skipIf (!keyPressed s.keys (s.getV x).toNat) s)

/-- The code of the key `j` as a register value. -/
def keyCode (j : Key) : Byte := BitVec.ofNat 8 j.val

/-- LD Vx, K, FX0A (R213): a pressed key is taken at once; with none, PC goes back to the instruction, the mode
becomes AwaitingKey(x) and the step blocks. -/
def execLdVxK (x : Reg) (s : State) : Outcome :=
  match anyPressed s with
  | some j => finish (s.setV x (keyCode j)).countDraw
  | none => block ((s.setPc (instrPc s.pc)).setMode (.awaitingKey x))

/-- A step in the mode AwaitingKey(x) (R215): it fetches nothing. -/
def keyResume (x : Reg) (s : State) : Outcome :=
  match anyPressed s with
  | some j => finish (((s.setV x (keyCode j)).setPc (nextPc s.pc)).setMode .running).countDraw
  | none => block s

/-- LD Vx, DT, FX07 (R217). -/
def execLdVxDt (x : Reg) (s : State) : Outcome := finish (s.setV x s.dt)

/-- LD DT, Vx, FX15 (R218). -/
def execLdDtVx (x : Reg) (s : State) : Outcome := finish (s.setDt (s.getV x))

/-- LD ST, Vx, FX18 (R219). -/
def execLdStVx (x : Reg) (s : State) : Outcome := finish (s.setSt (s.getV x))

end Sys2Proof.Machine
end

