-- ==== Sys2Proof/Machine/LoadArith.lean ====
section
/-! DEFINITION. The load, arithmetic, logic, shift and random instructions (42_load_arith.md). Every operand is read
before any register is written (R140). -/

namespace Sys2Proof.Machine

/-- LD Vx, byte, 6XNN (R141). -/
def execLdImm (x : Reg) (nn : Byte) (s : State) : Outcome := finish (s.setV x nn)

/-- ADD Vx, byte, 7XNN (R142): no flag. -/
def execAddImm (x : Reg) (nn : Byte) (s : State) : Outcome := finish (s.setV x (s.getV x + nn))

/-- LD Vx, Vy, 8XY0 (R143). -/
def execLdReg (x y : Reg) (s : State) : Outcome := finish (s.setV x (s.getV y))

/-- OR Vx, Vy, 8XY1 (R144): no flag. -/
def execOrReg (x y : Reg) (s : State) : Outcome := finish (s.setV x (s.getV x ||| s.getV y))

/-- AND Vx, Vy, 8XY2 (R145): no flag. -/
def execAndReg (x y : Reg) (s : State) : Outcome := finish (s.setV x (s.getV x &&& s.getV y))

/-- XOR Vx, Vy, 8XY3 (R146): no flag. -/
def execXorReg (x y : Reg) (s : State) : Outcome := finish (s.setV x (s.getV x ^^^ s.getV y))

/-- ADD Vx, Vy, 8XY4 (R147): VF = carry. -/
def execAddReg (x y : Reg) (s : State) : Outcome :=
  finish (writeResultAndFlag x (s.getV x + s.getV y) (carryFlag (s.getV x) (s.getV y)) s)

/-- SUB Vx, Vy, 8XY5 (R148): VF = no borrow of Vx - Vy. -/
def execSub (x y : Reg) (s : State) : Outcome :=
  finish (writeResultAndFlag x (s.getV x - s.getV y) (noBorrowFlag (s.getV x) (s.getV y)) s)

/-- SHR Vx, Vy, 8XY6 (R149): VF = the bit shifted out. -/
def execShr (x y : Reg) (s : State) : Outcome :=
  finish (writeResultAndFlag x (shiftOperand x y s >>> 1) (shiftedOutRight (shiftOperand x y s)) s)

/-- SUBN Vx, Vy, 8XY7 (R150): VF = no borrow of Vy - Vx. -/
def execSubn (x y : Reg) (s : State) : Outcome :=
  finish (writeResultAndFlag x (s.getV y - s.getV x) (noBorrowFlag (s.getV y) (s.getV x)) s)

/-- SHL Vx, Vy, 8XYE (R151): VF = the bit shifted out. -/
def execShl (x y : Reg) (s : State) : Outcome :=
  finish (writeResultAndFlag x (shiftOperand x y s <<< 1) (shiftedOutLeft (shiftOperand x y s)) s)

/-- RND Vx, byte, CXNN (R152): a fresh draw of the random byte source (R256) AND the mask. -/
def execRnd (x : Reg) (nn : Byte) (s : State) : Outcome :=
  finish ((s.setV x (Config.randomByte s.draws &&& nn)).countDraw)

end Sys2Proof.Machine
end

