-- ==== Sys2Proof/Machine/MemoryIndex.lean ====
section
/-! DEFINITION. The memory and index instructions (43_memory_index.md). A transfer that leaves memory under
`ADDR_POLICY = Fault` faults at its first out-of-range address and commits nothing (R106, R234). -/

namespace Sys2Proof.Machine

/-- LD I, addr, ANNN (R170). -/
def execLdI (nnn : Addr12) (s : State) : Outcome := finish (s.setI (Addr12.zext nnn))

/-- ADD I, Vx, FX1E (R171): no flag. -/
def execAddI (x : Reg) (s : State) : Outcome := finish (s.setI (s.i + Byte.zext (s.getV x)))

/-- LD F, Vx, FX29 (R172). -/
def execLdF (x : Reg) (s : State) : Outcome := finish (s.setI (glyphAddr s.params (s.getV x)))

/-- The three decimal digits of a byte, most significant first (R173). -/
def bcdDigits (b : Byte) : List Byte :=
  [BitVec.ofNat 8 (b.toNat / 100), BitVec.ofNat 8 (b.toNat / 10 % 10), BitVec.ofNat 8 (b.toNat % 10)]

/-- LD B, Vx, FX33 (R173). -/
def execLdB (x : Reg) (s : State) : Outcome :=
  match storeBytes (baseAddr s) (bcdDigits (s.getV x)) s with
  | .ok s' => finish s'
  | .error e => raise .addressingError (.ldB x) (some e) s

/-- LD [I], Vx, FX55 (R174). -/
def execLdStore (x : Reg) (s : State) : Outcome :=
  match storeBytes (baseAddr s) (s.firstVs x) s with
  | .ok s' => finish (advanceI x s')
  | .error e => raise .addressingError (.ldStore x) (some e) s

/-- LD Vx, [I], FX65 (R175). -/
def execLdLoad (x : Reg) (s : State) : Outcome :=
  match loadBytes s (baseAddr s) (x.val + 1) with
  | .ok bs => finish (advanceI x (setVsFrom 0 bs s))
  | .error e => raise .addressingError (.ldLoad x) (some e) s

end Sys2Proof.Machine
end

