-- ==== Sys2Proof/Machine/Step.lean ====
section
/-! DEFINITION. `step()` (40_cycle.md R109), and the placing of an instruction where the next step fetches it. -/

namespace Sys2Proof.Machine

/-- A step in the mode Running with no fault (R102 to R105). -/
def stepRunning (s : State) : Outcome :=
  match fetch s s.pc with
  | .error e => halt .addressingError s.pc none (some e) s
  | .ok op =>
    match decode s.params.sysPolicy op with
    | .error _ => unknownOpcode op s
    | .ok i => exec i (s.setPc (nextPc s.pc))

/-- One `step()` (R109): a faulted machine stops with its record (R100), a waiting one looks for a key (R101), a
running one fetches, decodes and executes one instruction. -/
def step (s : State) : Host.Outcome State Fault Refusal :=
  match s.fault with
  | some r => .fault (.faulted r)
  | none =>
    match s.mode with
    | .awaitingKey x => keyResume x s
    | .running => stepRunning s

/-- Where the next instruction is fetched: at PC, or at 0x200 where no instruction can be fetched at PC. -/
def State.fetchPc (s : State) : Word :=
  match fetch s s.pc with
  | .ok _ => s.pc
  | .error _ => 0x200

/-- The state with the word `op` stored at the cells that a fetch at `a` reads (R54). -/
def State.placeWord (s : State) (a op : Word) : State :=
  match storeBytes a.toNat [hiByte op, loByte op] s with
  | .ok s' => s'
  | .error _ => s

/-- The state with an instruction of `nbits` bits placed where `step` fetches its next one, ready to run: the host's
load of a program (log 25). Nothing else changes but what would keep the fetch from happening: a recorded fault, a
key wait, a PC outside memory. -/
def State.withFetchWord (s : State) (nbits w : Nat) : State :=
  State.placeWord { s with fault := none, mode := .running, pc := s.fetchPc } s.fetchPc (BitVec.ofNat 16 (w % 2 ^ nbits))

end Sys2Proof.Machine
end

