-- ==== Sys2Proof/Machine/HostOps.lean ====
section
/-! DEFINITION. The host's operations beside `step()` (60_exceptions.md R250): `tick`, `set_key`, `snapshot`,
`sound_active`, `reset(rom)`, what each returns, and any finite or infinite schedule of them (R258). Each is atomic (R60) and keeps its meaning in
every mode and after a fault (R236). -/

namespace Sys2Proof.Machine

/-- One timer after a tick: down by 1, never below 0 (R30, R240). -/
def tickTimer (t : Byte) : Byte := if t.toNat > 0 then t - 1 else t

/-- `tick()` (R240). -/
def State.tick (s : State) : State := (s.setDt (tickTimer s.dt)).setSt (tickTimer s.st)

/-- `set_key(index, pressed)` (R251): an index of 16 or more changes nothing. -/
def State.setKey (s : State) (k : Nat) (pressed : Bool) : State :=
  if h : k < 16 then s.setKeys (s.keys.set k pressed h) else s

/-- `snapshot()` (R197). -/
def State.snapshot (s : State) : FrameBuffer := s.fb

/-- `sound_active()` (R242). -/
def State.soundActive (s : State) : Bool := decide (s.st.toNat > 0)

/-- The machine a reset builds before the ROM is loaded (R270). The parameters are the instance's, and the draws
already made stay made (log 4). -/
def State.cleared (s : State) : State := { State.initial s.params with draws := s.draws }

/-- `reset(rom)` (R270 to R272): the fresh machine with the ROM at 0x200, or ProgramTooLarge. -/
def State.resetRom (s : State) (rom : List Byte) : Except FaultKind State :=
  if rom.length > progMax then .error .programTooLarge
  else s.cleared.load progStart rom

/-- The host's operations (R250), all six. -/
inductive HostOp where
  | step
  | tick
  | setKey (k : Nat) (pressed : Bool)
  | snapshot
  | soundActive
  | reset (rom : List Byte)
  deriving DecidableEq, Repr

/-- What a host operation returns (R250). -/
inductive HostAnswer where
  /-- The status of a `step()` (R13). -/
  | status (r : Option Status)
  /-- The view of a `snapshot()` (R197). -/
  | view (f : FrameBuffer)
  /-- The answer of a `sound_active()` (R242). -/
  | sound (active : Bool)
  /-- A reset that failed (R272). -/
  | failed (k : FaultKind)
  /-- A tick, a key event or a reset that took effect: nothing is returned. -/
  | done
  deriving DecidableEq, Repr

/-- The machine after one host operation. A step of a faulted machine, a failed reset and the two reads change
nothing (R100, R272, R197, R242). -/
def State.apply (s : State) : HostOp → State
  | .step =>
    match step s with
    | .next t => t
    | .fault _ => s
    | .refused _ => s
  | .tick => s.tick
  | .setKey k pressed => s.setKey k pressed
  | .snapshot => s
  | .soundActive => s
  | .reset rom =>
    match s.resetRom rom with
    | .ok t => t
    | .error _ => s

/-- What one host operation returns, called on the machine `s`. -/
def State.answer (s : State) : HostOp → HostAnswer
  | .step =>
    match step s with
    | .next t => .status t.status
    | .fault (.faulted r) => .status (some (.faulted r))
    | .refused _ => .status none
  | .tick => .done
  | .setKey _ _ => .done
  | .snapshot => .view s.snapshot
  | .soundActive => .sound s.soundActive
  | .reset rom =>
    match s.resetRom rom with
    | .ok _ => .done
    | .error k => .failed k

/-- The machine after finitely many host operations, in order (R258). -/
def runSchedule : List HostOp → State → State
  | [], s => s
  | op :: ops, s => runSchedule ops (s.apply op)

/-- A schedule: any finite or infinite sequence of host operations (R258). -/
inductive Schedule where
  | finite (ops : List HostOp)
  | infinite (op : Nat → HostOp)

/-- The operation at place `n` of a schedule, if there is one. -/
def Schedule.op? : Schedule → Nat → Option HostOp
  | .finite ops, n => ops[n]?
  | .infinite op, n => some (op n)

/-- The machine before the operation at place `n` of a run from `s`; a finite run stays where it ended (R258). -/
def Schedule.stateAt (σ : Schedule) (s : State) : Nat → State
  | 0 => s
  | n + 1 =>
    match σ.op? n with
    | some op => (σ.stateAt s n).apply op
    | none => σ.stateAt s n

/-- What the operation at place `n` of a run from `s` returns, if there is one. -/
def Schedule.answerAt (σ : Schedule) (s : State) (n : Nat) : Option HostAnswer :=
  (σ.op? n).map (σ.stateAt s n).answer

end Sys2Proof.Machine
end

