-- ==== Sys2Proof/Safety.lean ====
section
/-! DEFINITION. What claims speak of: the invariant of well-formed states, the bound on PC, the agreement of the
status with the mode and the fault, the states that host schedules reach, and the parts of the state a frame names. -/

namespace Sys2Proof.Machine

/-- The invariant of every machine: FONT_BASE as R8 allows, memory in canonical form inside 0x000..0xFFF (R33), at
most 16 stack entries (R28, R29). -/
abbrev State.wf (s : State) : Prop :=
  s.params.wf ∧ Memory.wf s.params s.mem ∧ s.stack.length ≤ stackDepth

/-- The latest status agrees with the state: `Faulted(r)` was returned iff the fault status is `r`, `Blocked` iff the
mode is AwaitingKey (R13, R40, R214). -/
abbrev State.coherent (s : State) : Prop :=
  (match s.fault with
    | some r => s.status = some (.faulted r)
    | none =>
      match s.status with
      | some (.faulted _) => False
      | _ => True) ∧
  (match s.mode with
    | .awaitingKey _ => s.status = some .blocked
    | .running => s.status ≠ some .blocked)

/-- Under `ADDR_POLICY = Fault`, how far PC and the return addresses reach (R27, R124, R129, R214): a wait holds the
address of an instruction that was fetched. -/
abbrev State.pcBounded (s : State) : Prop :=
  s.params.addrPolicy = .fault →
    s.pc.toNat ≤ 0x10FE ∧ (∀ a ∈ s.stack, a.toNat ≤ 0x1000) ∧ (s.mode ≠ .running → s.pc.toNat ≤ 0xFFE)

/-- A run that no fault has ended (R285). -/
abbrev State.safe (s : State) : Prop := s.fault = none

/-- The states that some host schedule, finite or infinite, reaches from the reset machine with parameters `p`
(R258). -/
def Reachable (p : Params) (s : State) : Prop := ∃ (σ : Schedule) (n : Nat), s = σ.stateAt (State.initial p) n

/-! ### Frames -/

/-- The byte of memory at an address, as the machine reads it. -/
def State.byteAt (s : State) (a : Nat) : Byte := Memory.read s.params s.mem a

/-- A transfer of `n` bytes at `a` meets no AddressingError: the policy wraps, or every byte exists (R52). -/
abbrev State.inReach (s : State) (a n : Nat) : Prop := s.params.addrPolicy = .wrap ∨ a + n ≤ memSize

/-- The parts of the machine that a frame names, one register, one byte, one pixel each. The status is not among
them: it is what the step returns. -/
inductive Part where
  | v (r : Reg)
  | i
  | pc
  | stack
  | dt
  | st
  | byte (a : Nat)
  | pixel (x y : Nat)
  | keys
  | mode
  | fault
  | params
  | draws
  deriving DecidableEq, Repr

/-- The part holds in `t` what it held in `s`. -/
def Part.same (s t : State) : Part → Prop
  | .v r => t.getV r = s.getV r
  | .i => t.i = s.i
  | .pc => t.pc = s.pc
  | .stack => t.stack = s.stack
  | .dt => t.dt = s.dt
  | .st => t.st = s.st
  | .byte a => t.byteAt a = s.byteAt a
  | .pixel x y => Machine.pixel t.fb x y = Machine.pixel s.fb x y
  | .keys => t.keys = s.keys
  | .mode => t.mode = s.mode
  | .fault => t.fault = s.fault
  | .params => t.params = s.params
  | .draws => t.draws = s.draws

/-- Every part of the machine but the named ones is unchanged. -/
def unchangedBut (changed : Part → Prop) (s t : State) : Prop := ∀ p : Part, ¬ changed p → p.same s t

end Sys2Proof.Machine
end

