-- ==== Sys2Proof/Certificates/Slice0/Obligations.lean ====
section
/-! DEFINITION. The statements for the provers. In each, `exec i s` runs on the state after the fetch, in which PC is
the instruction's address plus 2 (R102, R110); that what a step returns (R13) stands in the field `status` of the next
state is the model's choice (DESIGN CHOICE, log 2); `unchangedBut` is the frame: every register, byte, pixel and other
part but the named ones. -/

open Sys2Proof Sys2Proof.Machine

/-! ### Encoding -/

/-- Words written out from the patterns of R73 decode to the instructions they stand for (the patterns are the spec's
general knowledge, log 9). -/
def Obligations.SampleWordsDecode : Prop :=
  decode .ignore 0x0ABC = .ok (.sys 0xABC) ∧ decode .ignore 0x00E0 = .ok .cls ∧ decode .ignore 0x00EE = .ok .ret ∧
  decode .ignore 0x1234 = .ok (.jp 0x234) ∧ decode .ignore 0x3312 = .ok (.seImm 3 0x12) ∧
  decode .ignore 0x8125 = .ok (.sub 1 2) ∧ decode .ignore 0xA2F0 = .ok (.ldI 0x2F0) ∧
  decode .ignore 0xD125 = .ok (.drw 1 2 5) ∧ decode .ignore 0xE19E = .ok (.skp 1) ∧
  decode .ignore 0xF265 = .ok (.ldLoad 2) ∧ decode .ignore 0x5121 = .error (.unknownOpcode 0x5121) ∧
  decode .unknown 0x0123 = .error (.unknownOpcode 0x0123) ∧
  decodeBytes .ignore [0x12, 0x34, 0x56] = .ok (.jp 0x234, [0x56])

/-- Decoding the encoding of an instruction that the policy recognises gives it back, every operand at every value
(R73, R74). -/
def Obligations.DecodeOfEncodeAgrees : Prop :=
  ∀ (p : SysPolicy) (i : Instr), i.recognised p = true → decode p (encode i) = .ok i

/-- Each recognised word has one meaning: it is the encoding of the instruction it decodes to, which the policy
recognises, so no bit of a word is dropped (R73, R74, R75). -/
def Obligations.EncodeOfDecodeAgrees : Prop :=
  ∀ (p : SysPolicy) (op : Word) (i : Instr), decode p op = .ok i → encode i = op ∧ i.recognised p = true

/-- The unknown encodings are exactly those of the table of R76, by the word's number (patterns: log 9). -/
def Obligations.UnknownEncodingsAreTheTable : Prop :=
  ∀ (p : SysPolicy) (op : Word),
    decode p op = .error (.unknownOpcode op) ↔
      (op.toNat / 4096 = 5 ∧ op.toNat % 16 ≠ 0) ∨
      (op.toNat / 4096 = 8 ∧ op.toNat % 16 ∈ [0x8, 0x9, 0xA, 0xB, 0xC, 0xD, 0xF]) ∨
      (op.toNat / 4096 = 9 ∧ op.toNat % 16 ≠ 0) ∨
      (op.toNat / 4096 = 14 ∧ op.toNat % 256 ∉ [0x9E, 0xA1]) ∨
      (op.toNat / 4096 = 15 ∧ op.toNat % 256 ∉ [0x07, 0x0A, 0x15, 0x18, 0x1E, 0x29, 0x33, 0x55, 0x65]) ∨
      (op.toNat / 4096 = 0 ∧ op.toNat ∉ [0x0E0, 0x0EE] ∧ p = .unknown)

/-! ### The cycle -/

/-- A running machine with no fault runs the instruction its word at PC decodes to, on the state with PC advanced by
2 (R102, R103, R105). -/
def Obligations.StepRunsDecodedInstruction : Prop :=
  ∀ (s : State) (op : Word) (i : Instr), s.fault = none → s.mode = .running → fetch s s.pc = .ok op →
    decode s.params.sysPolicy op = .ok i → step s = exec i (s.setPc (s.pc + 2))

/-- The host's placing of an instruction makes the next step run exactly it (the model's own `withFetchWord`,
log 25). -/
def Obligations.PlacedInstructionRuns : Prop :=
  ∀ (s : State) (i : Instr), Memory.wf s.params s.mem → s.fault = none → s.mode = .running → s.pc.toNat + 1 < 4096 →
    i.recognised s.params.sysPolicy = true →
    ∃ t, t = s.withFetchWord 16 (encode i).toNat ∧ step t = exec i (t.setPc (s.pc + 2)) ∧
      unchangedBut (fun p => p = .byte s.pc.toNat ∨ p = .byte (s.pc.toNat + 1)) s t

/-- The fetch reads two consecutive bytes big-endian and fails if either does not exist (R54). -/
def Obligations.FetchReadsBigEndianWord : Prop :=
  ∀ (s : State) (a : Word),
    (s.params.addrPolicy = .wrap ∨ a.toNat + 1 < 4096 →
      ∃ w, fetch s a = .ok w ∧
        w.toNat = 256 * (s.byteAt (a.toNat % 4096)).toNat + (s.byteAt ((a.toNat + 1) % 4096)).toNat) ∧
    (s.params.addrPolicy = .fault → a.toNat = 4095 → fetch s a = .error 4096) ∧
    (s.params.addrPolicy = .fault → 4096 ≤ a.toNat → fetch s a = .error a.toNat)

/-- A byte write changes its own byte and nothing else, or fails at 4096 and above, by the policy (R53); a byte read
is the byte there, by the same policy. -/
def Obligations.ByteWriteIsBoundsChecked : Prop :=
  ∀ (s : State) (a : Nat) (b : Byte), Memory.wf s.params s.mem →
    (s.inReach a 1 →
      s.memRead a = .ok (s.byteAt (a % 4096)) ∧
      ∃ t, s.memWrite a b = .ok t ∧ t.byteAt (a % 4096) = b ∧ unchangedBut (fun p => p = .byte (a % 4096)) s t) ∧
    (s.params.addrPolicy = .fault → 4096 ≤ a → s.memWrite a b = .error a ∧ s.memRead a = .error a)

/-- A fetch fault records the address of the instruction and the out-of-range address, no opcode, and changes nothing
else (R102, R106, R231; decisions D18, D19 of the spec). That the faulting step answers a next state, and
that the status stands in it, are the model's choices (DESIGN CHOICE, log 3, log 2). -/
def Obligations.FetchFaultIsRecorded : Prop :=
  ∀ (s : State) (e : Nat), s.fault = none → s.mode = .running → fetch s s.pc = .error e →
    ∃ t, step s = .next t ∧ t.fault = some ⟨.addressingError, s.pc, none, some e⟩ ∧
      t.status = some (.faulted ⟨.addressingError, s.pc, none, some e⟩) ∧ unchangedBut (fun p => p = .fault) s t

/-- An unknown opcode is fatal, or is skipped and reported, by the policy (R104; decision D2 of the spec). When fatal,
the step records the address and the word and changes nothing else (R106, R231; decisions D18, D19 of the spec). That
the faulting step answers a next state, and that the status stands in it, are the model's choices (DESIGN CHOICE,
log 3, log 2). -/
def Obligations.UnknownOpcodeFollowsPolicy : Prop :=
  ∀ (s : State) (op : Word) (j : Reject), s.fault = none → s.mode = .running → fetch s s.pc = .ok op →
    decode s.params.sysPolicy op = .error j →
    (s.params.unknownPolicy = .fatal →
      ∃ t, step s = .next t ∧ t.fault = some ⟨.unknownOpcode, s.pc, some op, none⟩ ∧
        t.status = some (.faulted ⟨.unknownOpcode, s.pc, some op, none⟩) ∧ unchangedBut (fun p => p = .fault) s t) ∧
    (s.params.unknownPolicy = .ignore →
      ∃ t, step s = .next t ∧ t.pc.toNat = (s.pc.toNat + 2) % 65536 ∧ t.status = some (.ignored op s.pc) ∧
        unchangedBut (fun p => p = .pc) s t)

/-- A fault is all-or-nothing: whatever instruction faults, the state after the step is the state before it but for
the record and the status, and the record names the instruction's address, the word fetched there, and for an
AddressingError the address (R106, R231, R233; decisions D18, D19 of the spec). That the faulting step answers a next
state, and that the status stands in it, are the model's choices (DESIGN CHOICE, log 3, log 2). -/
def Obligations.FaultCommitsNothing : Prop :=
  ∀ (s t : State) (r : FaultRecord), s.fault = none → step s = .next t → t.fault = some r →
    t = (s.setFault r).setStatus (.faulted r) ∧ r.pc = s.pc ∧
    (∀ op, fetch s s.pc = .ok op → r.opcode = some op) ∧
    (∀ e, fetch s s.pc = .error e → r.opcode = none ∧ r.kind = .addressingError ∧ r.addr = some e) ∧
    (r.kind = .addressingError ↔ r.addr ≠ none)

/-- How many bytes of memory at I an instruction transfers (R58). -/
def transferLength : Instr → Nat
  | .drw _ _ n => n.toNat
  | .ldB _ => 3
  | .ldStore x => x.val + 1
  | .ldLoad x => x.val + 1
  | .sys _ | .cls | .ret | .jp _ | .call _ | .seImm _ _ | .sneImm _ _ | .seReg _ _ | .ldImm _ _ | .addImm _ _
  | .ldReg _ _ | .orReg _ _ | .andReg _ _ | .xorReg _ _ | .addReg _ _ | .sub _ _ | .shr _ _ | .subn _ _
  | .shl _ _ | .sneReg _ _ | .ldI _ | .jpV0 _ | .rnd _ _ | .skp _ | .sknp _ | .ldVxDt _ | .ldVxK _
  | .ldDtVx _ | .ldStVx _ | .addI _ | .ldF _ => 0

/-- Which instruction raises which fault, and when (the table of R232): the body of an instruction faults only by
RET on an empty stack, CALL on a full one, or a transfer at I that leaves memory under `ADDR_POLICY = Fault`. That
a fault answers a next state is the model's choice (DESIGN CHOICE, log 3). -/
def Obligations.FaultsOnlyWhereTheTableSays : Prop :=
  ∀ (i : Instr) (s t : State) (r : FaultRecord), s.fault = none → exec i s = .next t → t.fault = some r →
    (r.kind = .stackUnderflow ∧ i = .ret ∧ s.stack = []) ∨
    (r.kind = .stackOverflow ∧ (∃ nnn, i = .call nnn) ∧ 16 ≤ s.stack.length) ∨
    (r.kind = .addressingError ∧ s.params.addrPolicy = .fault ∧ transferLength i ≠ 0 ∧
      4096 < baseAddr s + transferLength i)

/-- A step of a machine with no fault always returns with a status (R13, R108). That it answers a next state also where
it faults (DESIGN CHOICE, log 3), and that the status stands in that state (DESIGN CHOICE, log 2), are the model's
choices. -/
def Obligations.StepReturnsUnlessFaulted : Prop :=
  ∀ s : State, s.fault = none → ∃ t r, step s = .next t ∧ t.status = some r

/-- A faulted machine makes no further progress: its step stops with the record, and under every schedule without a
reset it keeps the record and everything but the timers and the keys (R100, R235, R236; decisions D19, D20 of the
spec; the stop is the model's answer for a returned `Faulted`, log 3). -/
def Obligations.FaultedMachineMakesNoProgress : Prop :=
  ∀ (s : State) (r : FaultRecord) (ops : List HostOp), s.fault = some r → (∀ rom, HostOp.reset rom ∉ ops) →
    step s = .fault (.faulted r) ∧ (runSchedule ops s).fault = some r ∧
    unchangedBut (fun p => p = .dt ∨ p = .st ∨ p = .keys) s (runSchedule ops s)

/-! ### Invariants -/

/-- The machine after reset meets the three invariants, for every parameters R8 allows, the defaults among them
(R43). -/
def Obligations.ResetMeetsTheInvariants : Prop :=
  Params.default.wf ∧ State.reset.params = Params.default ∧
  ∀ p : Params, p.wf → (State.initial p).wf ∧ (State.initial p).coherent ∧ (State.initial p).pcBounded

/-- Every step keeps the invariant: memory in canonical form inside 0x000..0xFFF, at most 16 stack entries, FONT_BASE
as R8 allows (R28, R29, R33). -/
def Obligations.StepKeepsWellFormedness : Prop :=
  ∀ s t : State, s.wf → step s = .next t → t.wf

/-- Every step keeps the agreement of status, mode and fault: `Blocked` exactly in the wait, `Faulted(r)` exactly
with the record `r` (R13, R40, R214; the status field is the model's, log 2). -/
def Obligations.StepKeepsStatusCoherent : Prop :=
  ∀ s t : State, s.coherent → step s = .next t → t.coherent

/-- Under `ADDR_POLICY = Fault` every step keeps PC at or below 0x10FE and every return address at or below 0x1000
(R27, R124, R129; derived in the spec). -/
def Obligations.StepKeepsPcBounded : Prop :=
  ∀ s t : State, s.pcBounded → step s = .next t → t.pcBounded

/-- At every place of every schedule of host operations, finite or infinite, the invariants and the parameters hold
(R41, R258; the parameters' place in State is the model's, log 1). -/
def Obligations.SchedulesKeepTheInvariants : Prop :=
  ∀ (p : Params) (s : State), p.wf → Reachable p s → s.wf ∧ s.coherent ∧ s.pcBounded ∧ s.params = p

/-- No step writes the key flags or the parameters (R36, R41, R216). -/
def Obligations.StepNeverWritesKeysOrParameters : Prop :=
  ∀ s t : State, step s = .next t → t.keys = s.keys ∧ t.params = s.params

/-- The whole-machine rules on who writes what: I, the stack, the timers, the display, memory and the mode change
only by the instructions named for each (R24, R28, R30, R31, R35, R39, R58). The clause on the draws is the model's
choice (DESIGN CHOICE, log 4): the counter is the model's own, and FX0A counts a draw as CXNN does. -/
def Obligations.OnlyNamedInstructionsWriteEachPart : Prop :=
  ∀ (i : Instr) (s t : State), exec i s = .next t →
    (t.i ≠ s.i → (∃ nnn, i = .ldI nnn) ∨ (∃ x, i = .addI x ∨ i = .ldF x) ∨
      (s.params.ldregIncrementsI = true ∧ ∃ x, i = .ldStore x ∨ i = .ldLoad x)) ∧
    (t.stack ≠ s.stack → i = .ret ∨ ∃ nnn, i = .call nnn) ∧
    (t.dt ≠ s.dt → ∃ x, i = .ldDtVx x) ∧
    (t.st ≠ s.st → ∃ x, i = .ldStVx x) ∧
    (t.fb ≠ s.fb → i = .cls ∨ ∃ x y n, i = .drw x y n) ∧
    (t.mem ≠ s.mem → ∃ x, i = .ldB x ∨ i = .ldStore x) ∧
    (t.mode ≠ s.mode → ∃ x, i = .ldVxK x) ∧
    (t.draws ≠ s.draws → ∃ x, i = .ldVxK x ∨ ∃ nn, i = .rnd x nn)

/-- The V registers each instruction may write: its named destination, V0..Vx for FX65, and VF for the six
instructions of R22 (R21, R22). -/
def mayWriteV : Instr → Reg → Prop
  | .ldImm x _, r | .addImm x _, r | .ldReg x _, r | .orReg x _, r | .andReg x _, r | .xorReg x _, r
  | .rnd x _, r | .ldVxDt x, r | .ldVxK x, r => r = x
  | .addReg x _, r | .sub x _, r | .shr x _, r | .subn x _, r | .shl x _, r => r = x ∨ r = vF
  | .drw _ _ _, r => r = vF
  | .ldLoad x, r => r ≤ x
  | .sys _, _ | .cls, _ | .ret, _ | .jp _, _ | .call _, _ | .seImm _ _, _ | .sneImm _ _, _ | .seReg _ _, _
  | .sneReg _ _, _ | .ldI _, _ | .jpV0 _, _ | .skp _, _ | .sknp _, _ | .ldDtVx _, _ | .ldStVx _, _
  | .addI _, _ | .ldF _, _ | .ldB _, _ | .ldStore _, _ => False

/-- No instruction writes a V register its rule does not name; VF is written as a flag by exactly the instructions
of R22 (R21, R22). -/
def Obligations.OnlyNamedRegistersChange : Prop :=
  ∀ (i : Instr) (s t : State) (r : Reg), exec i s = .next t → ¬ mayWriteV i r → t.getV r = s.getV r

/-! ### Control flow -/

/-- JP sets PC to NNN, whatever NNN is (R123). -/
def Obligations.JumpSetsPc : Prop :=
  ∀ (s : State) (nnn : Addr12),
    ∃ t, exec (.jp nnn) s = .next t ∧ t.pc.toNat = nnn.toNat ∧ t.status = some .ok ∧
      unchangedBut (fun p => p = .pc) s t

/-- SYS does nothing; JP V0 jumps to NNN + V0 (R121, R129; decisions D5, D25 of the spec, log 10, log 11). -/
def Obligations.SysAndJumpV0 : Prop :=
  (∀ (s : State) (nnn : Addr12),
    ∃ t, exec (.sys nnn) s = .next t ∧ t.status = some .ok ∧ unchangedBut (fun _ => False) s t) ∧
  (∀ (s : State) (nnn : Addr12),
    ∃ t, exec (.jpV0 nnn) s = .next t ∧ t.pc.toNat = (nnn.toNat + (s.getV 0).toNat) % 65536 ∧
      t.status = some .ok ∧ unchangedBut (fun p => p = .pc) s t)

/-- CALL pushes the address after it and jumps, or overflows with 16 entries held and pushes nothing (R124). That
the overflow answers a next state is the model's choice (DESIGN CHOICE, log 3), and so is how the record's pc, PC - 2,
and its opcode, the instruction's encoding, are recovered (DEDUCED, log 22; decisions D18, D19 of the spec). -/
def Obligations.CallPushesOrOverflows : Prop :=
  ∀ (s : State) (nnn : Addr12),
    (s.stack.length < 16 →
      ∃ t, exec (.call nnn) s = .next t ∧ t.stack = s.pc :: s.stack ∧ t.pc.toNat = nnn.toNat ∧
        t.status = some .ok ∧ unchangedBut (fun p => p = .pc ∨ p = .stack) s t) ∧
    (16 ≤ s.stack.length →
      ∃ t, exec (.call nnn) s = .next t ∧ t.pc = s.pc - 2 ∧
        t.fault = some ⟨.stackOverflow, s.pc - 2, some (encode (.call nnn)), none⟩ ∧
        unchangedBut (fun p => p = .pc ∨ p = .fault) s t)

/-- RET pops the top entry into PC, or underflows on an empty stack (R122). That the underflow answers a next state
is the model's choice (DESIGN CHOICE, log 3), and so is how the record's pc, PC - 2, and its opcode, the instruction's
encoding, are recovered (DEDUCED, log 22; decisions D18, D19 of the spec). -/
def Obligations.ReturnPopsOrUnderflows : Prop :=
  (∀ (s : State) (a : Word) (l : List Word), s.stack = a :: l →
    ∃ t, exec .ret s = .next t ∧ t.pc = a ∧ t.stack = l ∧ t.status = some .ok ∧
      unchangedBut (fun p => p = .pc ∨ p = .stack) s t) ∧
  (∀ s : State, s.stack = [] →
    ∃ t, exec .ret s = .next t ∧ t.pc = s.pc - 2 ∧
      t.fault = some ⟨.stackUnderflow, s.pc - 2, some (encode .ret), none⟩ ∧
      unchangedBut (fun p => p = .pc ∨ p = .fault) s t)

/-- A return goes back behind its call: from any state that holds the stack a CALL left, RET gives the address after
the CALL and the stack before it (R122, R124). -/
def Obligations.ReturnUndoesCall : Prop :=
  ∀ (s t u : State) (nnn : Addr12), s.stack.length < 16 → exec (.call nnn) s = .next t → u.stack = t.stack →
    ∃ w, exec .ret u = .next w ∧ w.pc = s.pc ∧ w.stack = s.stack ∧ w.status = some .ok

/-- The four compare-and-skip instructions add 2 to PC exactly when their comparison holds (R120, R125 to R128; the
senses are the spec's general knowledge, log 10). -/
def Obligations.CompareSkips : Prop :=
  (∀ (s : State) (x : Reg) (nn : Byte),
    ∃ t, exec (.seImm x nn) s = .next t ∧ t.status = some .ok ∧ unchangedBut (fun p => p = .pc) s t ∧
      t.pc.toNat = if (s.getV x).toNat = nn.toNat then (s.pc.toNat + 2) % 65536 else s.pc.toNat) ∧
  (∀ (s : State) (x : Reg) (nn : Byte),
    ∃ t, exec (.sneImm x nn) s = .next t ∧ t.status = some .ok ∧ unchangedBut (fun p => p = .pc) s t ∧
      t.pc.toNat = if (s.getV x).toNat = nn.toNat then s.pc.toNat else (s.pc.toNat + 2) % 65536) ∧
  (∀ (s : State) (x y : Reg),
    ∃ t, exec (.seReg x y) s = .next t ∧ t.status = some .ok ∧ unchangedBut (fun p => p = .pc) s t ∧
      t.pc.toNat = if (s.getV x).toNat = (s.getV y).toNat then (s.pc.toNat + 2) % 65536 else s.pc.toNat) ∧
  (∀ (s : State) (x y : Reg),
    ∃ t, exec (.sneReg x y) s = .next t ∧ t.status = some .ok ∧ unchangedBut (fun p => p = .pc) s t ∧
      t.pc.toNat = if (s.getV x).toNat = (s.getV y).toNat then s.pc.toNat else (s.pc.toNat + 2) % 65536)

/-! ### Loads, arithmetic, logic, shifts, random -/

/-- LD Vx, byte and LD Vx, Vy set the register and nothing else (R141, R143). -/
def Obligations.LoadsSetTheRegister : Prop :=
  (∀ (s : State) (x : Reg) (nn : Byte),
    ∃ t, exec (.ldImm x nn) s = .next t ∧ t.getV x = nn ∧ t.status = some .ok ∧
      unchangedBut (fun p => p = .v x) s t) ∧
  (∀ (s : State) (x y : Reg),
    ∃ t, exec (.ldReg x y) s = .next t ∧ t.getV x = s.getV y ∧ t.status = some .ok ∧
      unchangedBut (fun p => p = .v x) s t)

/-- ADD Vx, byte adds mod 256 and leaves VF alone unless it is the destination (R142; decision D8 of the spec,
log 13). -/
def Obligations.AddImmediateWrapsWithoutFlag : Prop :=
  ∀ (s : State) (x : Reg) (nn : Byte),
    ∃ t, exec (.addImm x nn) s = .next t ∧ (t.getV x).toNat = ((s.getV x).toNat + nn.toNat) % 256 ∧
      t.status = some .ok ∧ unchangedBut (fun p => p = .v x) s t

/-- OR, AND and XOR work bit by bit and leave VF alone unless it is the destination (R144, R145, R146; decision D7 of
the spec, log 13). -/
def Obligations.BitwiseWithoutFlag : Prop :=
  ∀ (s : State) (x y : Reg),
    (∃ t, exec (.orReg x y) s = .next t ∧ t.status = some .ok ∧ unchangedBut (fun p => p = .v x) s t ∧
      ∀ j < 8, (t.getV x).getLsbD j = ((s.getV x).getLsbD j || (s.getV y).getLsbD j)) ∧
    (∃ t, exec (.andReg x y) s = .next t ∧ t.status = some .ok ∧ unchangedBut (fun p => p = .v x) s t ∧
      ∀ j < 8, (t.getV x).getLsbD j = ((s.getV x).getLsbD j && (s.getV y).getLsbD j)) ∧
    (∃ t, exec (.xorReg x y) s = .next t ∧ t.status = some .ok ∧ unchangedBut (fun p => p = .v x) s t ∧
      ∀ j < 8, (t.getV x).getLsbD j = ((s.getV x).getLsbD j ^^ (s.getV y).getLsbD j))

/-- ADD Vx, Vy: the sum mod 256, VF the carry; with X = F the flag wins (R147; also
decision D6 of the spec, log 12). -/
def Obligations.AddSetsCarry : Prop :=
  ∀ (s : State) (x y : Reg),
    ∃ t, exec (.addReg x y) s = .next t ∧
      (x ≠ 15 → (t.getV x).toNat = ((s.getV x).toNat + (s.getV y).toNat) % 256) ∧
      (t.getV 15).toNat = (if (s.getV x).toNat + (s.getV y).toNat > 255 then 1 else 0) ∧
      t.status = some .ok ∧ unchangedBut (fun p => p = .v x ∨ p = .v 15) s t

/-- SUB: Vx - Vy mod 256, VF 1 iff there is no borrow; with X = F the flag wins (R148; also
decision D6 of the spec, log 12). -/
def Obligations.SubSetsNoBorrow : Prop :=
  ∀ (s : State) (x y : Reg),
    ∃ t, exec (.sub x y) s = .next t ∧
      (x ≠ 15 → ((t.getV x).toNat : Int) = (((s.getV x).toNat : Int) - (s.getV y).toNat) % 256) ∧
      (t.getV 15).toNat = (if (s.getV x).toNat ≥ (s.getV y).toNat then 1 else 0) ∧
      t.status = some .ok ∧ unchangedBut (fun p => p = .v x ∨ p = .v 15) s t

/-- SUBN: Vy - Vx mod 256, VF 1 iff there is no borrow; with X = F the flag wins (R150; also
decision D6 of the spec, log 12). -/
def Obligations.SubnSetsNoBorrow : Prop :=
  ∀ (s : State) (x y : Reg),
    ∃ t, exec (.subn x y) s = .next t ∧
      (x ≠ 15 → ((t.getV x).toNat : Int) = (((s.getV y).toNat : Int) - (s.getV x).toNat) % 256) ∧
      (t.getV 15).toNat = (if (s.getV y).toNat ≥ (s.getV x).toNat then 1 else 0) ∧
      t.status = some .ok ∧ unchangedBut (fun p => p = .v x ∨ p = .v 15) s t

/-- SHR and SHL shift the register SHIFT_SOURCE names by 1 with zero fill, VF the bit shifted out; with X = F the
flag wins (R149, R151; which register the default names is decision D3 of the spec, log 14;
X = F is decision D6, log 12). -/
def Obligations.ShiftsSetShiftedOutBit : Prop :=
  ∀ (s : State) (x y src : Reg),
    (s.params.shiftSource = .vx → src = x) → (s.params.shiftSource = .vy → src = y) →
    (∃ t, exec (.shr x y) s = .next t ∧ (x ≠ 15 → (t.getV x).toNat = (s.getV src).toNat / 2) ∧
      (t.getV 15).toNat = (s.getV src).toNat % 2 ∧
      t.status = some .ok ∧ unchangedBut (fun p => p = .v x ∨ p = .v 15) s t) ∧
    (∃ t, exec (.shl x y) s = .next t ∧ (x ≠ 15 → (t.getV x).toNat = (s.getV src).toNat * 2 % 256) ∧
      (t.getV 15).toNat = (s.getV src).toNat / 128 ∧
      t.status = some .ok ∧ unchangedBut (fun p => p = .v x ∨ p = .v 15) s t)

/-- RND takes one fresh draw of the free byte source, ANDs it with the mask and writes no flag; the statement holds
whatever the draws are (R152, R256; decision D17 of the spec; the counter is the model's, log 4). -/
def Obligations.RandomIsMaskedFreshDraw : Prop :=
  ∀ (s : State) (x : Reg) (nn : Byte),
    ∃ t, exec (.rnd x nn) s = .next t ∧ t.draws = s.draws + 1 ∧
      (∀ j < 8, (t.getV x).getLsbD j = ((Config.randomByte s.draws).getLsbD j && nn.getLsbD j)) ∧
      (t.getV x).toNat ≤ nn.toNat ∧
      t.status = some .ok ∧ unchangedBut (fun p => p = .v x ∨ p = .draws) s t

/-! ### Memory and index -/

/-- LD I, addr sets I to NNN, zero-extended (R170). -/
def Obligations.LoadIndexSetsI : Prop :=
  ∀ (s : State) (nnn : Addr12),
    ∃ t, exec (.ldI nnn) s = .next t ∧ t.i.toNat = nnn.toNat ∧ t.status = some .ok ∧
      unchangedBut (fun p => p = .i) s t

/-- ADD I, Vx adds mod 65536 with no flag; LD F, Vx points I at the glyph of the low nibble (R171, R172; decisions D8
and D10 of the spec, log 13, log 16). -/
def Obligations.AddIndexAndFontAddress : Prop :=
  (∀ (s : State) (x : Reg),
    ∃ t, exec (.addI x) s = .next t ∧ t.i.toNat = (s.i.toNat + (s.getV x).toNat) % 65536 ∧ t.status = some .ok ∧
      unchangedBut (fun p => p = .i) s t) ∧
  (∀ (s : State) (x : Reg), s.params.wf →
    ∃ t, exec (.ldF x) s = .next t ∧ t.i.toNat = s.params.fontBase + 5 * ((s.getV x).toNat % 16) ∧
      t.status = some .ok ∧ unchangedBut (fun p => p = .i) s t)

/-- LD B stores the three decimal digits at I, I + 1, I + 2, and they give the register's value back (R173); every
other byte and part is unchanged. -/
def Obligations.BcdDigitsReconstruct : Prop :=
  ∀ (s : State) (x : Reg), Memory.wf s.params s.mem → s.inReach (baseAddr s) 3 →
    ∃ t, exec (.ldB x) s = .next t ∧ t.status = some .ok ∧
      (∀ c, resolveAddr s.params (baseAddr s) = .ok c → (t.byteAt c).toNat = (s.getV x).toNat / 100) ∧
      (∀ c, resolveAddr s.params (baseAddr s + 1) = .ok c → (t.byteAt c).toNat = (s.getV x).toNat / 10 % 10) ∧
      (∀ c, resolveAddr s.params (baseAddr s + 2) = .ok c → (t.byteAt c).toNat = (s.getV x).toNat % 10) ∧
      (∀ c0 c1 c2, resolveAddr s.params (baseAddr s) = .ok c0 → resolveAddr s.params (baseAddr s + 1) = .ok c1 →
        resolveAddr s.params (baseAddr s + 2) = .ok c2 →
        100 * (t.byteAt c0).toNat + 10 * (t.byteAt c1).toNat + (t.byteAt c2).toNat = (s.getV x).toNat) ∧
      unchangedBut (fun p => ∃ k < 3, ∃ c, resolveAddr s.params (baseAddr s + k) = .ok c ∧ p = .byte c) s t

/-- LD [I], Vx stores V0..Vx at I, I + 1, ...; every other byte is unchanged, and I moves only under
LDREG_INCREMENTS_I (R174; the default of that parameter is decision D9 of the spec, log 15). -/
def Obligations.BulkStoreWritesV0ToVx : Prop :=
  ∀ (s : State) (x : Reg), Memory.wf s.params s.mem → s.inReach (baseAddr s) (x.val + 1) →
    ∃ t, exec (.ldStore x) s = .next t ∧ t.status = some .ok ∧
      (∀ (k : Reg) (c : Nat), k ≤ x → resolveAddr s.params (baseAddr s + k.val) = .ok c → t.byteAt c = s.getV k) ∧
      (s.params.ldregIncrementsI = false → t.i = s.i) ∧
      (s.params.ldregIncrementsI = true → t.i.toNat = (s.i.toNat + x.val + 1) % 65536) ∧
      unchangedBut
        (fun p => p = .i ∨ ∃ k ≤ x.val, ∃ c, resolveAddr s.params (baseAddr s + k) = .ok c ∧ p = .byte c) s t

/-- LD Vx, [I] loads V0..Vx from I, I + 1, ...; registers above Vx and all of memory are unchanged, and I moves only
under LDREG_INCREMENTS_I (R175; the default of that parameter is decision D9 of the spec, log 15). -/
def Obligations.BulkLoadReadsV0ToVx : Prop :=
  ∀ (s : State) (x : Reg), s.inReach (baseAddr s) (x.val + 1) →
    ∃ t, exec (.ldLoad x) s = .next t ∧ t.status = some .ok ∧
      (∀ (k : Reg) (c : Nat), k ≤ x → resolveAddr s.params (baseAddr s + k.val) = .ok c → t.getV k = s.byteAt c) ∧
      (s.params.ldregIncrementsI = false → t.i = s.i) ∧
      (s.params.ldregIncrementsI = true → t.i.toNat = (s.i.toNat + x.val + 1) % 65536) ∧
      unchangedBut (fun p => p = .i ∨ ∃ k ≤ x, p = .v k) s t

/-- A transfer at I that leaves memory under `ADDR_POLICY = Fault` records the first address that does not exist and
changes nothing else (R106, R173, R174, R175, R193, R231, R234; decisions D18, D19 of the spec). That the fault answers
a next state is the model's choice (DESIGN CHOICE, log 3), and so is how the record's pc, PC - 2, and its opcode, the
instruction's encoding, are recovered (DEDUCED, log 22). -/
def Obligations.TransferPastMemoryFaults : Prop :=
  ∀ (s : State) (i : Instr), s.params.addrPolicy = .fault → transferLength i ≠ 0 →
    4096 < baseAddr s + transferLength i →
    ∃ t, exec i s = .next t ∧ t.pc = s.pc - 2 ∧
      t.fault = some ⟨.addressingError, s.pc - 2, some (encode i),
        some (if baseAddr s < 4096 then 4096 else baseAddr s)⟩ ∧
      unchangedBut (fun p => p = .pc ∨ p = .fault) s t

/-- Loading back what was stored: after LD [I], Vx, a LD Vx, [I] from the same memory and the same I restores V0..Vx
(R174, R175). -/
def Obligations.LoadRestoresStoredRegisters : Prop :=
  ∀ (s t u : State) (x : Reg), Memory.wf s.params s.mem → s.inReach (baseAddr s) (x.val + 1) →
    exec (.ldStore x) s = .next t → u.mem = t.mem → u.params = s.params → u.i = s.i →
    ∃ w, exec (.ldLoad x) u = .next w ∧ ∀ k ≤ x, w.getV k = s.getV k

/-- A stored word is fetched as stored by a later fetch of its address, high byte first (R56, R63; decision D24 of
the spec). -/
def Obligations.StoredBytesAreFetched : Prop :=
  ∀ (s t : State) (x k : Reg) (a : Word), Memory.wf s.params s.mem → s.inReach (baseAddr s) (x.val + 1) →
    exec (.ldStore x) s = .next t → k < x → a.toNat = baseAddr s + k.val →
    ∃ w, fetch t a = .ok w ∧ w.toNat = 256 * (s.getV k).toNat + (s.getV (k + 1)).toNat

/-! ### Display -/

/-- CLS turns every pixel off and changes nothing else (R192). -/
def Obligations.ClearTurnsEveryPixelOff : Prop :=
  ∀ s : State,
    ∃ t, exec .cls s = .next t ∧ (∀ x y, x < 64 → y < 32 → pixel t.fb x y = false) ∧ t.status = some .ok ∧
      unchangedBut (fun p => ∃ x y, p = .pixel x y) s t

/-- The sprite of a DRW covers the pixel `(px, py)` with a 1 bit: row `r` is the byte at `I + r`, its bit `7 - c` is
the pixel at column offset `c`, both coordinates wrapping (R191, R193, R194). -/
def covers (s : State) (x y : Reg) (n : Nibble) (px py : Nat) : Prop :=
  ∃ r < n.toNat, ∃ c < 8, (s.byteAt ((baseAddr s + r) % 4096)).getLsbD (7 - c) = true ∧
    px = ((s.getV x).toNat % 64 + c) % 64 ∧ py = ((s.getV y).toNat % 32 + r) % 32

/-- DRW toggles exactly the pixels its sprite covers, wrapping on both axes; VF is 1 iff a covered pixel was on, also
with N = 0 and with X or Y = F (R193, R194, R196; the bit order is the spec's general knowledge, log 17; N = 0 is
decision D11 of the spec, log 18). -/
def Obligations.DrawTogglesCoveredPixels : Prop :=
  ∀ (s : State) (x y : Reg) (n : Nibble), s.inReach (baseAddr s) n.toNat ∨ n = 0 →
    ∃ t, exec (.drw x y n) s = .next t ∧ t.status = some .ok ∧
      (∀ px py, px < 64 → py < 32 → covers s x y n px py → pixel t.fb px py = !pixel s.fb px py) ∧
      (∀ px py, px < 64 → py < 32 → ¬ covers s x y n px py → pixel t.fb px py = pixel s.fb px py) ∧
      ((∃ px py, px < 64 ∧ py < 32 ∧ covers s x y n px py ∧ pixel s.fb px py = true) → (t.getV 15).toNat = 1) ∧
      ((∀ px py, px < 64 → py < 32 → covers s x y n px py → pixel s.fb px py = false) → (t.getV 15).toNat = 0) ∧
      unchangedBut (fun p => p = .v 15 ∨ ∃ px py, p = .pixel px py) s t

/-- The collision flag: after a DRW, VF is 1 iff some pixel was on before and is off after, and 0 otherwise (R195; the
form N = 0 is also decision D11 of the spec, log 18). -/
def Obligations.CollisionMeansPixelTurnedOff : Prop :=
  ∀ (s : State) (x y : Reg) (n : Nibble), s.inReach (baseAddr s) n.toNat ∨ n = 0 →
    ∃ t, exec (.drw x y n) s = .next t ∧
      ((t.getV 15).toNat = 1 ↔ ∃ px py, px < 64 ∧ py < 32 ∧ pixel s.fb px py = true ∧ pixel t.fb px py = false) ∧
      (t.getV 15 = 0 ∨ t.getV 15 = 1)

/-- Drawing a sprite twice restores the display: with X and Y other than F, a second DRW with only PC moved in
between gives the buffer before the first, and VF = 1 iff some covered pixel was off before the first (R198, derived
in the spec; the form N = 0 is decision D11 of the spec, log 18). -/
def Obligations.DrawTwiceRestoresDisplay : Prop :=
  ∀ (s : State) (x y : Reg) (n : Nibble), x ≠ 15 → y ≠ 15 → s.inReach (baseAddr s) n.toNat ∨ n = 0 →
    ∃ t, exec (.drw x y n) s = .next t ∧
      ∀ a : Word, ∃ u, exec (.drw x y n) (t.setPc a) = .next u ∧ u.fb = s.fb ∧
        ((u.getV 15).toNat = 1 ↔ ∃ px py, px < 64 ∧ py < 32 ∧ covers s x y n px py ∧ pixel s.fb px py = false)

/-! ### Input and timers -/

/-- SKP and SKNP skip by the flag of the key Vx names; a value of 16 or more names no key and is not pressed (R210,
R211, R212; decision D13 of the spec, log 19). -/
def Obligations.KeySkips : Prop :=
  ∀ (s : State) (x : Reg) (down : Bool),
    (∀ h : (s.getV x).toNat < 16, down = s.keys[(s.getV x).toNat]) → (16 ≤ (s.getV x).toNat → down = false) →
    (∃ t, exec (.skp x) s = .next t ∧ t.status = some .ok ∧ unchangedBut (fun p => p = .pc) s t ∧
      t.pc.toNat = if down then (s.pc.toNat + 2) % 65536 else s.pc.toNat) ∧
    (∃ t, exec (.sknp x) s = .next t ∧ t.status = some .ok ∧ unchangedBut (fun p => p = .pc) s t ∧
      t.pc.toNat = if down then s.pc.toNat else (s.pc.toNat + 2) % 65536)

/-- LD Vx, K: with a key pressed, Vx gets the number of a pressed key (the lowest under the reference KEY_SELECT);
with none, PC goes back to the instruction and the machine waits (R213, R216; decisions D14, D15, D16 of the spec,
log 5, log 20). That a key taken counts a draw is the model's choice (DESIGN CHOICE, log 4). -/
def Obligations.KeyWaitTakesKeyOrBlocks : Prop :=
  ∀ (s : State) (x : Reg),
    ((∃ k : Key, s.keys[k] = true) →
      ∃ t, ∃ j : Key, exec (.ldVxK x) s = .next t ∧ s.keys[j] = true ∧ (t.getV x).toNat = j.val ∧
        (s.params.keySelect = .lowest → ∀ k : Key, s.keys[k] = true → j ≤ k) ∧
        t.status = some .ok ∧ unchangedBut (fun p => p = .v x ∨ p = .draws) s t) ∧
    ((∀ k : Key, s.keys[k] = false) →
      ∃ t, exec (.ldVxK x) s = .next t ∧ t.pc = s.pc - 2 ∧ t.mode = .awaitingKey x ∧ t.status = some .blocked ∧
        unchangedBut (fun p => p = .pc ∨ p = .mode) s t)

/-- A step in the wait fetches nothing: with no key it returns Blocked and changes nothing; with one it stores its
number, advances PC by 2 and runs on (R101, R215; decision D14 of the spec, log 20). That a key taken
counts a draw is the model's choice (DESIGN CHOICE, log 4). -/
def Obligations.WaitingStepResumesOnKey : Prop :=
  ∀ (s : State) (x : Reg), s.fault = none → s.mode = .awaitingKey x →
    ((∃ k : Key, s.keys[k] = true) →
      ∃ t, ∃ j : Key, step s = .next t ∧ s.keys[j] = true ∧ (t.getV x).toNat = j.val ∧
        t.pc.toNat = (s.pc.toNat + 2) % 65536 ∧ t.mode = .running ∧ t.status = some .ok ∧
        unchangedBut (fun p => p = .v x ∨ p = .pc ∨ p = .mode ∨ p = .draws) s t) ∧
    ((∀ k : Key, s.keys[k] = false) →
      ∃ t, step s = .next t ∧ t.status = some .blocked ∧ unchangedBut (fun _ => False) s t)

/-- The key wait across steps: from a running machine whose word at PC is FX0A, with no key pressed, every number of
steps leaves PC where it is, blocked; once `set_key` marks a key pressed, the next step stores its code and advances
PC by 2 (R214; decision D14 of the spec, log 20). -/
def Obligations.KeyWaitHoldsUntilKeyPressed : Prop :=
  ∀ (s : State) (op : Word) (x k : Reg) (n : Nat), s.fault = none → s.mode = .running → fetch s s.pc = .ok op →
    decode s.params.sysPolicy op = .ok (.ldVxK x) → (∀ j : Key, s.keys[j] = false) →
    ∃ t u, Sys2Proof.core.run (n + 1) s = .next t ∧ t.pc = s.pc ∧ t.status = some .blocked ∧
      unchangedBut (fun p => p = .mode) s t ∧
      step (t.setKey k.val true) = .next u ∧ (u.getV x).toNat = k.val ∧ u.pc.toNat = (s.pc.toNat + 2) % 65536 ∧
      u.mode = .running ∧ u.status = some .ok

/-- FX07 reads DT; FX15 and FX18 set DT and ST from a register, and the sound is active after FX18 iff the value is
above 0 (R217, R218, R219). -/
def Obligations.TimerInstructionsMoveTimers : Prop :=
  (∀ (s : State) (x : Reg),
    ∃ t, exec (.ldVxDt x) s = .next t ∧ t.getV x = s.dt ∧ t.status = some .ok ∧
      unchangedBut (fun p => p = .v x) s t) ∧
  (∀ (s : State) (x : Reg),
    ∃ t, exec (.ldDtVx x) s = .next t ∧ t.dt = s.getV x ∧ t.status = some .ok ∧
      unchangedBut (fun p => p = .dt) s t) ∧
  (∀ (s : State) (x : Reg),
    ∃ t, exec (.ldStVx x) s = .next t ∧ t.st = s.getV x ∧ t.status = some .ok ∧
      (t.soundActive = true ↔ 0 < (s.getV x).toNat) ∧ unchangedBut (fun p => p = .st) s t)

/-- The parameter KEY_SELECT takes every function R216 allows: for any choice that answers none exactly when no key
is pressed, and a pressed key otherwise, some table makes the machine choose it (R216; the table form is the model's,
log 5). -/
def Obligations.TableExpressesEveryKeySelect : Prop :=
  ∀ f : Vector Bool 16 → Option Key,
    (∀ keys, f keys = none ↔ ∀ k : Key, keys[k] = false) → (∀ (keys : Vector Bool 16) (j : Key), f keys = some j → keys[j] = true) →
    ∃ rows, ∀ s : State, s.params.keySelect = .table rows → anyPressed s = f s.keys

/-! ### Host operations -/

/-- After `n` ticks each timer holds `max(0, V - n)`, whatever the mode and the fault status, and nothing else has
changed; the sound is active iff ST is above 0 (R240, R242). -/
def Obligations.TicksCountDownToZero : Prop :=
  ∀ (s : State) (n : Nat),
    (State.tick^[n] s).dt.toNat = s.dt.toNat - n ∧ (State.tick^[n] s).st.toNat = s.st.toNat - n ∧
    ((State.tick^[n] s).soundActive = true ↔ 0 < (State.tick^[n] s).st.toNat) ∧
    unchangedBut (fun p => p = .dt ∨ p = .st) s (State.tick^[n] s)

/-- `set_key` sets the flag of its key and nothing else; an index of 16 or more is ignored (R251). -/
def Obligations.SetKeySetsOneFlag : Prop :=
  ∀ (s : State) (k : Nat) (down : Bool),
    (∀ j : Key, (s.setKey k down).keys[j] = if j.val = k then down else s.keys[j]) ∧
    (16 ≤ k → s.setKey k down = s) ∧ unchangedBut (fun p => p = .keys) s (s.setKey k down)

/-- Every reset that succeeds leaves PC at 0x200, the mode Running and no fault recorded (R273). -/
def Obligations.ResetVectorAndMode : Prop :=
  (∀ (s t : State) (rom : List Byte), s.resetRom rom = .ok t → t.pc = 0x200 ∧ t.mode = .running ∧ t.fault = none) ∧
  State.reset.pc = 0x200 ∧ State.reset.mode = .running ∧ State.reset.fault = none

/-- `reset(rom)`: a ROM of at most 3584 bytes gives the state of R43, the ROM verbatim from 0x200, the font at
FONT_BASE, everything else zero, empty, off or released; a longer ROM fails and changes nothing (R43, R270, R271,
R272; decisions D12, D21, D22 of the spec, log 6, 7, 24). -/
def Obligations.ResetLoadsRomOrFails : Prop :=
  ∀ (s : State) (rom : List Byte), s.params.wf →
    (rom.length ≤ 3584 →
      ∃ t, s.resetRom rom = .ok t ∧ s.apply (.reset rom) = t ∧
        (∀ k (h : k < rom.length), t.byteAt (0x200 + k) = rom[k]) ∧
        (∀ k (h : k < 80), t.byteAt (s.params.fontBase + k) = s.params.fontData[k]) ∧
        (∀ a, (a < s.params.fontBase ∨ s.params.fontBase + 80 ≤ a) → (a < 0x200 ∨ 0x200 + rom.length ≤ a) →
          t.byteAt a = 0) ∧
        (∀ r, t.getV r = 0) ∧ t.i = 0 ∧ t.pc = 0x200 ∧ t.stack = [] ∧ t.dt = 0 ∧ t.st = 0 ∧
        (∀ x y, pixel t.fb x y = false) ∧ (∀ k : Key, t.keys[k] = false) ∧ t.mode = .running ∧ t.fault = none ∧
        t.params = s.params) ∧
    (3584 < rom.length → s.resetRom rom = .error .programTooLarge ∧ s.apply (.reset rom) = s)

/-- `load(offset, bytes)` writes the bytes from `offset` up, or fails with an AddressingError iff
`offset + len > 4096`, whatever ADDR_POLICY is (R55). -/
def Obligations.BulkHostLoadWritesOrFails : Prop :=
  ∀ (s : State) (offset : Nat) (bytes : List Byte), Memory.wf s.params s.mem →
    (offset + bytes.length ≤ 4096 →
      ∃ t, s.load offset bytes = .ok t ∧ (∀ k (h : k < bytes.length), t.byteAt (offset + k) = bytes[k]) ∧
        unchangedBut (fun p => ∃ k < bytes.length, p = .byte (offset + k)) s t) ∧
    (4096 < offset + bytes.length → s.load offset bytes = .error .addressingError)

/-- Every host operation keeps the three invariants and the parameters, from every state that meets the invariants,
whether a run reaches it or not (R28, R33, R40, R41, R250, R258; the status and the parameters in State are the
model's, log 1, log 2). -/
def Obligations.HostOperationsKeepTheInvariants : Prop :=
  ∀ (s : State) (op : HostOp), s.wf → s.coherent → s.pcBounded →
    (s.apply op).wf ∧ (s.apply op).coherent ∧ (s.apply op).pcBounded ∧ (s.apply op).params = s.params
end

