-- ==== Sys2Proof/Laws/Encoding.lean ====
section
/-! SUPPORT. The laws of the opcode fields (30_encoding.md R71): each field of a word put together from its fields,
and each word as its fields put together. -/

namespace Sys2Proof

@[simp] theorem toFin_regBits (x : Reg) : (regBits x).toFin = x := rfl

@[simp] theorem regBits_opX (op : Word) : regBits (opX op) = op.extractLsb' 8 4 := rfl

@[simp] theorem regBits_opY (op : Word) : regBits (opY op) = op.extractLsb' 4 4 := rfl

/-! ### The fields as numbers -/

theorem opH_toNat (op : Word) : (opH op).toNat = op.toNat / 4096 % 16 := by
  simp [opH, BitVec.extractLsb'_toNat, Nat.shiftRight_eq_div_pow]

theorem opN_toNat (op : Word) : (opN op).toNat = op.toNat % 16 := by
  simp [opN, BitVec.extractLsb'_toNat]

theorem opNN_toNat (op : Word) : (opNN op).toNat = op.toNat % 256 := by
  simp [opNN, BitVec.extractLsb'_toNat]

theorem opNNN_toNat (op : Word) : (opNNN op).toNat = op.toNat % 4096 := by
  simp [opNNN, BitVec.extractLsb'_toNat]

theorem opX_val (op : Word) : (opX op).val = op.toNat / 256 % 16 := by
  have : (opX op).val = (op.extractLsb' 8 4).toNat := rfl
  rw [this]; simp [BitVec.extractLsb'_toNat, Nat.shiftRight_eq_div_pow]

theorem opY_val (op : Word) : (opY op).val = op.toNat / 16 % 16 := by
  have : (opY op).val = (op.extractLsb' 4 4).toNat := rfl
  rw [this]; simp [BitVec.extractLsb'_toNat, Nat.shiftRight_eq_div_pow]

theorem beWord_toNat (hi lo : Byte) : (beWord hi lo).toNat = 256 * hi.toNat + lo.toNat := by
  have h := lo.isLt
  show (hi ++ lo).toNat = _
  rw [BitVec.toNat_append, ← Nat.shiftLeft_add_eq_or_of_lt (by simpa using h), Nat.shiftLeft_eq]
  omega

theorem wordNNN_toNat (h : Nibble) (nnn : Addr12) : (wordNNN h nnn).toNat = 4096 * h.toNat + nnn.toNat := by
  have hn := nnn.isLt
  show (h ++ nnn).toNat = _
  rw [BitVec.toNat_append, ← Nat.shiftLeft_add_eq_or_of_lt (by simpa using hn), Nat.shiftLeft_eq]
  omega

theorem wordXNN_toNat (h : Nibble) (x : Reg) (nn : Byte) :
    (wordXNN h x nn).toNat = 4096 * h.toNat + 256 * x.val + nn.toNat := by
  have hn := nn.isLt
  have hx : (regBits x ++ nn : Addr12).toNat = 256 * x.val + nn.toNat := by
    show (regBits x ++ nn).toNat = _
    rw [BitVec.toNat_append, ← Nat.shiftLeft_add_eq_or_of_lt (by simpa using hn), Nat.shiftLeft_eq]
    have : (regBits x).toNat = x.val := rfl
    omega
  have := wordNNN_toNat h (regBits x ++ nn : Addr12)
  rw [wordXNN]
  rw [wordNNN] at this
  omega

theorem wordXYN_toNat (h : Nibble) (x y : Reg) (n : Nibble) :
    (wordXYN h x y n).toNat = 4096 * h.toNat + 256 * x.val + 16 * y.val + n.toNat := by
  have hn := n.isLt
  have hy : (regBits y ++ n : Byte).toNat = 16 * y.val + n.toNat := by
    show (regBits y ++ n).toNat = _
    rw [BitVec.toNat_append, ← Nat.shiftLeft_add_eq_or_of_lt (by simpa using hn), Nat.shiftLeft_eq]
    have : (regBits y).toNat = y.val := rfl
    omega
  have := wordXNN_toNat h x (regBits y ++ n : Byte)
  rw [wordXYN]
  rw [wordXNN] at this
  omega

/-! ### The fields of a word put together -/

@[simp] theorem opH_wordNNN (h : Nibble) (nnn : Addr12) : opH (wordNNN h nnn) = h := by
  apply BitVec.eq_of_toNat_eq
  have := h.isLt; have := nnn.isLt
  rw [opH_toNat, wordNNN_toNat]; omega

@[simp] theorem opNNN_wordNNN (h : Nibble) (nnn : Addr12) : opNNN (wordNNN h nnn) = nnn := by
  apply BitVec.eq_of_toNat_eq
  have := h.isLt; have := nnn.isLt
  rw [opNNN_toNat, wordNNN_toNat]; omega

@[simp] theorem opH_wordXNN (h : Nibble) (x : Reg) (nn : Byte) : opH (wordXNN h x nn) = h := by
  apply BitVec.eq_of_toNat_eq
  have := h.isLt; have := nn.isLt; have := x.isLt
  rw [opH_toNat, wordXNN_toNat]; omega

@[simp] theorem opX_wordXNN (h : Nibble) (x : Reg) (nn : Byte) : opX (wordXNN h x nn) = x := by
  apply Fin.ext
  have := h.isLt; have := nn.isLt; have := x.isLt
  rw [opX_val, wordXNN_toNat]; omega

@[simp] theorem opNN_wordXNN (h : Nibble) (x : Reg) (nn : Byte) : opNN (wordXNN h x nn) = nn := by
  apply BitVec.eq_of_toNat_eq
  have := h.isLt; have := nn.isLt; have := x.isLt
  rw [opNN_toNat, wordXNN_toNat]; omega

@[simp] theorem opH_wordXYN (h : Nibble) (x y : Reg) (n : Nibble) : opH (wordXYN h x y n) = h := by
  apply BitVec.eq_of_toNat_eq
  have := h.isLt; have := n.isLt; have := x.isLt; have := y.isLt
  rw [opH_toNat, wordXYN_toNat]; omega

@[simp] theorem opX_wordXYN (h : Nibble) (x y : Reg) (n : Nibble) : opX (wordXYN h x y n) = x := by
  apply Fin.ext
  have := h.isLt; have := n.isLt; have := x.isLt; have := y.isLt
  rw [opX_val, wordXYN_toNat]; omega

@[simp] theorem opY_wordXYN (h : Nibble) (x y : Reg) (n : Nibble) : opY (wordXYN h x y n) = y := by
  apply Fin.ext
  have := h.isLt; have := n.isLt; have := x.isLt; have := y.isLt
  rw [opY_val, wordXYN_toNat]; omega

@[simp] theorem opN_wordXYN (h : Nibble) (x y : Reg) (n : Nibble) : opN (wordXYN h x y n) = n := by
  apply BitVec.eq_of_toNat_eq
  have := h.isLt; have := n.isLt; have := x.isLt; have := y.isLt
  rw [opN_toNat, wordXYN_toNat]; omega

/-! ### A word as its fields put together -/

theorem word_eq_NNN (op : Word) : wordNNN (opH op) (opNNN op) = op := by
  apply BitVec.eq_of_toNat_eq
  have := op.isLt
  rw [wordNNN_toNat, opH_toNat, opNNN_toNat]; omega

theorem word_eq_XNN (op : Word) : wordXNN (opH op) (opX op) (opNN op) = op := by
  apply BitVec.eq_of_toNat_eq
  have := op.isLt
  rw [wordXNN_toNat, opH_toNat, opX_val, opNN_toNat]; omega

theorem word_eq_XYN (op : Word) : wordXYN (opH op) (opX op) (opY op) (opN op) = op := by
  apply BitVec.eq_of_toNat_eq
  have := op.isLt
  rw [wordXYN_toNat, opH_toNat, opX_val, opY_val, opN_toNat]; omega

/-- A word is its two bytes, the high one first (R56). -/
theorem beWord_hiByte_loByte (op : Word) : beWord (hiByte op) (loByte op) = op := by
  apply BitVec.eq_of_toNat_eq
  have h := op.isLt
  have h1 : (hiByte op).toNat = op.toNat / 256 := by
    simp [hiByte, BitVec.extractLsb'_toNat, Nat.shiftRight_eq_div_pow]
    omega
  have h2 : (loByte op).toNat = op.toNat % 256 := by simp [loByte, BitVec.extractLsb'_toNat]
  rw [beWord_toNat, h1, h2]; omega

end Sys2Proof
end

