-- ==== Sys2Proof/Laws/State.lean ====
section
/-! SUPPORT. What each update of the state does to each field: one lemma per field per update, all true by rfl, and
the reads of a V register after each update. -/

namespace Sys2Proof.Machine

variable (s : State)

/-! ### setV -/

@[simp] theorem setV_i (x : Reg) (b : Byte) : (s.setV x b).i = s.i := rfl
@[simp] theorem setV_pc (x : Reg) (b : Byte) : (s.setV x b).pc = s.pc := rfl
@[simp] theorem setV_stack (x : Reg) (b : Byte) : (s.setV x b).stack = s.stack := rfl
@[simp] theorem setV_dt (x : Reg) (b : Byte) : (s.setV x b).dt = s.dt := rfl
@[simp] theorem setV_st (x : Reg) (b : Byte) : (s.setV x b).st = s.st := rfl
@[simp] theorem setV_mem (x : Reg) (b : Byte) : (s.setV x b).mem = s.mem := rfl
@[simp] theorem setV_fb (x : Reg) (b : Byte) : (s.setV x b).fb = s.fb := rfl
@[simp] theorem setV_keys (x : Reg) (b : Byte) : (s.setV x b).keys = s.keys := rfl
@[simp] theorem setV_mode (x : Reg) (b : Byte) : (s.setV x b).mode = s.mode := rfl
@[simp] theorem setV_fault (x : Reg) (b : Byte) : (s.setV x b).fault = s.fault := rfl
@[simp] theorem setV_params (x : Reg) (b : Byte) : (s.setV x b).params = s.params := rfl
@[simp] theorem setV_status (x : Reg) (b : Byte) : (s.setV x b).status = s.status := rfl
@[simp] theorem setV_draws (x : Reg) (b : Byte) : (s.setV x b).draws = s.draws := rfl

@[simp] theorem getV_setV_same (x : Reg) (b : Byte) : (s.setV x b).getV x = b := by
  simp [State.getV, State.setV]

theorem getV_setV_ne (x y : Reg) (b : Byte) (h : y ≠ x) : (s.setV x b).getV y = s.getV y := by
  have hv : x.val ≠ y.val := fun e => h (Fin.ext e.symm)
  simp [State.getV, State.setV, hv]

theorem getV_setV (x y : Reg) (b : Byte) : (s.setV x b).getV y = if y = x then b else s.getV y := by
  split
  · next h => subst h; exact getV_setV_same s y b
  · next h => exact getV_setV_ne s x y b h

/-! ### setI -/

@[simp] theorem setI_v (a : Word) : (s.setI a).v = s.v := rfl
@[simp] theorem setI_i (a : Word) : (s.setI a).i = a := rfl
@[simp] theorem setI_pc (a : Word) : (s.setI a).pc = s.pc := rfl
@[simp] theorem setI_stack (a : Word) : (s.setI a).stack = s.stack := rfl
@[simp] theorem setI_dt (a : Word) : (s.setI a).dt = s.dt := rfl
@[simp] theorem setI_st (a : Word) : (s.setI a).st = s.st := rfl
@[simp] theorem setI_mem (a : Word) : (s.setI a).mem = s.mem := rfl
@[simp] theorem setI_fb (a : Word) : (s.setI a).fb = s.fb := rfl
@[simp] theorem setI_keys (a : Word) : (s.setI a).keys = s.keys := rfl
@[simp] theorem setI_mode (a : Word) : (s.setI a).mode = s.mode := rfl
@[simp] theorem setI_fault (a : Word) : (s.setI a).fault = s.fault := rfl
@[simp] theorem setI_params (a : Word) : (s.setI a).params = s.params := rfl
@[simp] theorem setI_status (a : Word) : (s.setI a).status = s.status := rfl
@[simp] theorem setI_draws (a : Word) : (s.setI a).draws = s.draws := rfl
@[simp] theorem getV_setI (a : Word) (x : Reg) : (s.setI a).getV x = s.getV x := rfl

/-! ### setPc -/

@[simp] theorem setPc_v (a : Word) : (s.setPc a).v = s.v := rfl
@[simp] theorem setPc_i (a : Word) : (s.setPc a).i = s.i := rfl
@[simp] theorem setPc_pc (a : Word) : (s.setPc a).pc = a := rfl
@[simp] theorem setPc_stack (a : Word) : (s.setPc a).stack = s.stack := rfl
@[simp] theorem setPc_dt (a : Word) : (s.setPc a).dt = s.dt := rfl
@[simp] theorem setPc_st (a : Word) : (s.setPc a).st = s.st := rfl
@[simp] theorem setPc_mem (a : Word) : (s.setPc a).mem = s.mem := rfl
@[simp] theorem setPc_fb (a : Word) : (s.setPc a).fb = s.fb := rfl
@[simp] theorem setPc_keys (a : Word) : (s.setPc a).keys = s.keys := rfl
@[simp] theorem setPc_mode (a : Word) : (s.setPc a).mode = s.mode := rfl
@[simp] theorem setPc_fault (a : Word) : (s.setPc a).fault = s.fault := rfl
@[simp] theorem setPc_params (a : Word) : (s.setPc a).params = s.params := rfl
@[simp] theorem setPc_status (a : Word) : (s.setPc a).status = s.status := rfl
@[simp] theorem setPc_draws (a : Word) : (s.setPc a).draws = s.draws := rfl
@[simp] theorem getV_setPc (a : Word) (x : Reg) : (s.setPc a).getV x = s.getV x := rfl

/-! ### setStack -/

@[simp] theorem setStack_v (l : List Word) : (s.setStack l).v = s.v := rfl
@[simp] theorem setStack_i (l : List Word) : (s.setStack l).i = s.i := rfl
@[simp] theorem setStack_pc (l : List Word) : (s.setStack l).pc = s.pc := rfl
@[simp] theorem setStack_stack (l : List Word) : (s.setStack l).stack = l := rfl
@[simp] theorem setStack_dt (l : List Word) : (s.setStack l).dt = s.dt := rfl
@[simp] theorem setStack_st (l : List Word) : (s.setStack l).st = s.st := rfl
@[simp] theorem setStack_mem (l : List Word) : (s.setStack l).mem = s.mem := rfl
@[simp] theorem setStack_fb (l : List Word) : (s.setStack l).fb = s.fb := rfl
@[simp] theorem setStack_keys (l : List Word) : (s.setStack l).keys = s.keys := rfl
@[simp] theorem setStack_mode (l : List Word) : (s.setStack l).mode = s.mode := rfl
@[simp] theorem setStack_fault (l : List Word) : (s.setStack l).fault = s.fault := rfl
@[simp] theorem setStack_params (l : List Word) : (s.setStack l).params = s.params := rfl
@[simp] theorem setStack_status (l : List Word) : (s.setStack l).status = s.status := rfl
@[simp] theorem setStack_draws (l : List Word) : (s.setStack l).draws = s.draws := rfl
@[simp] theorem getV_setStack (l : List Word) (x : Reg) : (s.setStack l).getV x = s.getV x := rfl

/-! ### setDt -/

@[simp] theorem setDt_v (b : Byte) : (s.setDt b).v = s.v := rfl
@[simp] theorem setDt_i (b : Byte) : (s.setDt b).i = s.i := rfl
@[simp] theorem setDt_pc (b : Byte) : (s.setDt b).pc = s.pc := rfl
@[simp] theorem setDt_stack (b : Byte) : (s.setDt b).stack = s.stack := rfl
@[simp] theorem setDt_dt (b : Byte) : (s.setDt b).dt = b := rfl
@[simp] theorem setDt_st (b : Byte) : (s.setDt b).st = s.st := rfl
@[simp] theorem setDt_mem (b : Byte) : (s.setDt b).mem = s.mem := rfl
@[simp] theorem setDt_fb (b : Byte) : (s.setDt b).fb = s.fb := rfl
@[simp] theorem setDt_keys (b : Byte) : (s.setDt b).keys = s.keys := rfl
@[simp] theorem setDt_mode (b : Byte) : (s.setDt b).mode = s.mode := rfl
@[simp] theorem setDt_fault (b : Byte) : (s.setDt b).fault = s.fault := rfl
@[simp] theorem setDt_params (b : Byte) : (s.setDt b).params = s.params := rfl
@[simp] theorem setDt_status (b : Byte) : (s.setDt b).status = s.status := rfl
@[simp] theorem setDt_draws (b : Byte) : (s.setDt b).draws = s.draws := rfl
@[simp] theorem getV_setDt (b : Byte) (x : Reg) : (s.setDt b).getV x = s.getV x := rfl

/-! ### setSt -/

@[simp] theorem setSt_v (b : Byte) : (s.setSt b).v = s.v := rfl
@[simp] theorem setSt_i (b : Byte) : (s.setSt b).i = s.i := rfl
@[simp] theorem setSt_pc (b : Byte) : (s.setSt b).pc = s.pc := rfl
@[simp] theorem setSt_stack (b : Byte) : (s.setSt b).stack = s.stack := rfl
@[simp] theorem setSt_dt (b : Byte) : (s.setSt b).dt = s.dt := rfl
@[simp] theorem setSt_st (b : Byte) : (s.setSt b).st = b := rfl
@[simp] theorem setSt_mem (b : Byte) : (s.setSt b).mem = s.mem := rfl
@[simp] theorem setSt_fb (b : Byte) : (s.setSt b).fb = s.fb := rfl
@[simp] theorem setSt_keys (b : Byte) : (s.setSt b).keys = s.keys := rfl
@[simp] theorem setSt_mode (b : Byte) : (s.setSt b).mode = s.mode := rfl
@[simp] theorem setSt_fault (b : Byte) : (s.setSt b).fault = s.fault := rfl
@[simp] theorem setSt_params (b : Byte) : (s.setSt b).params = s.params := rfl
@[simp] theorem setSt_status (b : Byte) : (s.setSt b).status = s.status := rfl
@[simp] theorem setSt_draws (b : Byte) : (s.setSt b).draws = s.draws := rfl
@[simp] theorem getV_setSt (b : Byte) (x : Reg) : (s.setSt b).getV x = s.getV x := rfl

/-! ### setMem -/

@[simp] theorem setMem_v (m : Memory) : (s.setMem m).v = s.v := rfl
@[simp] theorem setMem_i (m : Memory) : (s.setMem m).i = s.i := rfl
@[simp] theorem setMem_pc (m : Memory) : (s.setMem m).pc = s.pc := rfl
@[simp] theorem setMem_stack (m : Memory) : (s.setMem m).stack = s.stack := rfl
@[simp] theorem setMem_dt (m : Memory) : (s.setMem m).dt = s.dt := rfl
@[simp] theorem setMem_st (m : Memory) : (s.setMem m).st = s.st := rfl
@[simp] theorem setMem_mem (m : Memory) : (s.setMem m).mem = m := rfl
@[simp] theorem setMem_fb (m : Memory) : (s.setMem m).fb = s.fb := rfl
@[simp] theorem setMem_keys (m : Memory) : (s.setMem m).keys = s.keys := rfl
@[simp] theorem setMem_mode (m : Memory) : (s.setMem m).mode = s.mode := rfl
@[simp] theorem setMem_fault (m : Memory) : (s.setMem m).fault = s.fault := rfl
@[simp] theorem setMem_params (m : Memory) : (s.setMem m).params = s.params := rfl
@[simp] theorem setMem_status (m : Memory) : (s.setMem m).status = s.status := rfl
@[simp] theorem setMem_draws (m : Memory) : (s.setMem m).draws = s.draws := rfl
@[simp] theorem getV_setMem (m : Memory) (x : Reg) : (s.setMem m).getV x = s.getV x := rfl

/-! ### setFb -/

@[simp] theorem setFb_v (f : FrameBuffer) : (s.setFb f).v = s.v := rfl
@[simp] theorem setFb_i (f : FrameBuffer) : (s.setFb f).i = s.i := rfl
@[simp] theorem setFb_pc (f : FrameBuffer) : (s.setFb f).pc = s.pc := rfl
@[simp] theorem setFb_stack (f : FrameBuffer) : (s.setFb f).stack = s.stack := rfl
@[simp] theorem setFb_dt (f : FrameBuffer) : (s.setFb f).dt = s.dt := rfl
@[simp] theorem setFb_st (f : FrameBuffer) : (s.setFb f).st = s.st := rfl
@[simp] theorem setFb_mem (f : FrameBuffer) : (s.setFb f).mem = s.mem := rfl
@[simp] theorem setFb_fb (f : FrameBuffer) : (s.setFb f).fb = f := rfl
@[simp] theorem setFb_keys (f : FrameBuffer) : (s.setFb f).keys = s.keys := rfl
@[simp] theorem setFb_mode (f : FrameBuffer) : (s.setFb f).mode = s.mode := rfl
@[simp] theorem setFb_fault (f : FrameBuffer) : (s.setFb f).fault = s.fault := rfl
@[simp] theorem setFb_params (f : FrameBuffer) : (s.setFb f).params = s.params := rfl
@[simp] theorem setFb_status (f : FrameBuffer) : (s.setFb f).status = s.status := rfl
@[simp] theorem setFb_draws (f : FrameBuffer) : (s.setFb f).draws = s.draws := rfl
@[simp] theorem getV_setFb (f : FrameBuffer) (x : Reg) : (s.setFb f).getV x = s.getV x := rfl

/-! ### setKeys -/

@[simp] theorem setKeys_v (k : Vector Bool 16) : (s.setKeys k).v = s.v := rfl
@[simp] theorem setKeys_i (k : Vector Bool 16) : (s.setKeys k).i = s.i := rfl
@[simp] theorem setKeys_pc (k : Vector Bool 16) : (s.setKeys k).pc = s.pc := rfl
@[simp] theorem setKeys_stack (k : Vector Bool 16) : (s.setKeys k).stack = s.stack := rfl
@[simp] theorem setKeys_dt (k : Vector Bool 16) : (s.setKeys k).dt = s.dt := rfl
@[simp] theorem setKeys_st (k : Vector Bool 16) : (s.setKeys k).st = s.st := rfl
@[simp] theorem setKeys_mem (k : Vector Bool 16) : (s.setKeys k).mem = s.mem := rfl
@[simp] theorem setKeys_fb (k : Vector Bool 16) : (s.setKeys k).fb = s.fb := rfl
@[simp] theorem setKeys_keys (k : Vector Bool 16) : (s.setKeys k).keys = k := rfl
@[simp] theorem setKeys_mode (k : Vector Bool 16) : (s.setKeys k).mode = s.mode := rfl
@[simp] theorem setKeys_fault (k : Vector Bool 16) : (s.setKeys k).fault = s.fault := rfl
@[simp] theorem setKeys_params (k : Vector Bool 16) : (s.setKeys k).params = s.params := rfl
@[simp] theorem setKeys_status (k : Vector Bool 16) : (s.setKeys k).status = s.status := rfl
@[simp] theorem setKeys_draws (k : Vector Bool 16) : (s.setKeys k).draws = s.draws := rfl
@[simp] theorem getV_setKeys (k : Vector Bool 16) (x : Reg) : (s.setKeys k).getV x = s.getV x := rfl

/-! ### setMode -/

@[simp] theorem setMode_v (m : Mode) : (s.setMode m).v = s.v := rfl
@[simp] theorem setMode_i (m : Mode) : (s.setMode m).i = s.i := rfl
@[simp] theorem setMode_pc (m : Mode) : (s.setMode m).pc = s.pc := rfl
@[simp] theorem setMode_stack (m : Mode) : (s.setMode m).stack = s.stack := rfl
@[simp] theorem setMode_dt (m : Mode) : (s.setMode m).dt = s.dt := rfl
@[simp] theorem setMode_st (m : Mode) : (s.setMode m).st = s.st := rfl
@[simp] theorem setMode_mem (m : Mode) : (s.setMode m).mem = s.mem := rfl
@[simp] theorem setMode_fb (m : Mode) : (s.setMode m).fb = s.fb := rfl
@[simp] theorem setMode_keys (m : Mode) : (s.setMode m).keys = s.keys := rfl
@[simp] theorem setMode_mode (m : Mode) : (s.setMode m).mode = m := rfl
@[simp] theorem setMode_fault (m : Mode) : (s.setMode m).fault = s.fault := rfl
@[simp] theorem setMode_params (m : Mode) : (s.setMode m).params = s.params := rfl
@[simp] theorem setMode_status (m : Mode) : (s.setMode m).status = s.status := rfl
@[simp] theorem setMode_draws (m : Mode) : (s.setMode m).draws = s.draws := rfl
@[simp] theorem getV_setMode (m : Mode) (x : Reg) : (s.setMode m).getV x = s.getV x := rfl

/-! ### setFault -/

@[simp] theorem setFault_v (r : FaultRecord) : (s.setFault r).v = s.v := rfl
@[simp] theorem setFault_i (r : FaultRecord) : (s.setFault r).i = s.i := rfl
@[simp] theorem setFault_pc (r : FaultRecord) : (s.setFault r).pc = s.pc := rfl
@[simp] theorem setFault_stack (r : FaultRecord) : (s.setFault r).stack = s.stack := rfl
@[simp] theorem setFault_dt (r : FaultRecord) : (s.setFault r).dt = s.dt := rfl
@[simp] theorem setFault_st (r : FaultRecord) : (s.setFault r).st = s.st := rfl
@[simp] theorem setFault_mem (r : FaultRecord) : (s.setFault r).mem = s.mem := rfl
@[simp] theorem setFault_fb (r : FaultRecord) : (s.setFault r).fb = s.fb := rfl
@[simp] theorem setFault_keys (r : FaultRecord) : (s.setFault r).keys = s.keys := rfl
@[simp] theorem setFault_mode (r : FaultRecord) : (s.setFault r).mode = s.mode := rfl
@[simp] theorem setFault_fault (r : FaultRecord) : (s.setFault r).fault = some r := rfl
@[simp] theorem setFault_params (r : FaultRecord) : (s.setFault r).params = s.params := rfl
@[simp] theorem setFault_status (r : FaultRecord) : (s.setFault r).status = s.status := rfl
@[simp] theorem setFault_draws (r : FaultRecord) : (s.setFault r).draws = s.draws := rfl
@[simp] theorem getV_setFault (r : FaultRecord) (x : Reg) : (s.setFault r).getV x = s.getV x := rfl

/-! ### setStatus -/

@[simp] theorem setStatus_v (r : Status) : (s.setStatus r).v = s.v := rfl
@[simp] theorem setStatus_i (r : Status) : (s.setStatus r).i = s.i := rfl
@[simp] theorem setStatus_pc (r : Status) : (s.setStatus r).pc = s.pc := rfl
@[simp] theorem setStatus_stack (r : Status) : (s.setStatus r).stack = s.stack := rfl
@[simp] theorem setStatus_dt (r : Status) : (s.setStatus r).dt = s.dt := rfl
@[simp] theorem setStatus_st (r : Status) : (s.setStatus r).st = s.st := rfl
@[simp] theorem setStatus_mem (r : Status) : (s.setStatus r).mem = s.mem := rfl
@[simp] theorem setStatus_fb (r : Status) : (s.setStatus r).fb = s.fb := rfl
@[simp] theorem setStatus_keys (r : Status) : (s.setStatus r).keys = s.keys := rfl
@[simp] theorem setStatus_mode (r : Status) : (s.setStatus r).mode = s.mode := rfl
@[simp] theorem setStatus_fault (r : Status) : (s.setStatus r).fault = s.fault := rfl
@[simp] theorem setStatus_params (r : Status) : (s.setStatus r).params = s.params := rfl
@[simp] theorem setStatus_status (r : Status) : (s.setStatus r).status = some r := rfl
@[simp] theorem setStatus_draws (r : Status) : (s.setStatus r).draws = s.draws := rfl
@[simp] theorem getV_setStatus (r : Status) (x : Reg) : (s.setStatus r).getV x = s.getV x := rfl

/-! ### countDraw -/

@[simp] theorem countDraw_v : (s.countDraw).v = s.v := rfl
@[simp] theorem countDraw_i : (s.countDraw).i = s.i := rfl
@[simp] theorem countDraw_pc : (s.countDraw).pc = s.pc := rfl
@[simp] theorem countDraw_stack : (s.countDraw).stack = s.stack := rfl
@[simp] theorem countDraw_dt : (s.countDraw).dt = s.dt := rfl
@[simp] theorem countDraw_st : (s.countDraw).st = s.st := rfl
@[simp] theorem countDraw_mem : (s.countDraw).mem = s.mem := rfl
@[simp] theorem countDraw_fb : (s.countDraw).fb = s.fb := rfl
@[simp] theorem countDraw_keys : (s.countDraw).keys = s.keys := rfl
@[simp] theorem countDraw_mode : (s.countDraw).mode = s.mode := rfl
@[simp] theorem countDraw_fault : (s.countDraw).fault = s.fault := rfl
@[simp] theorem countDraw_params : (s.countDraw).params = s.params := rfl
@[simp] theorem countDraw_status : (s.countDraw).status = s.status := rfl
@[simp] theorem countDraw_draws : (s.countDraw).draws = s.draws + 1 := rfl
@[simp] theorem getV_countDraw (x : Reg) : (s.countDraw).getV x = s.getV x := rfl

/-! ### Several registers at once -/

theorem setVsFrom_fields (bs : List Byte) : ∀ (k : Nat) (s : State),
    (setVsFrom k bs s).i = s.i ∧ (setVsFrom k bs s).pc = s.pc ∧ (setVsFrom k bs s).stack = s.stack ∧
    (setVsFrom k bs s).dt = s.dt ∧ (setVsFrom k bs s).st = s.st ∧ (setVsFrom k bs s).mem = s.mem ∧
    (setVsFrom k bs s).fb = s.fb ∧ (setVsFrom k bs s).keys = s.keys ∧ (setVsFrom k bs s).mode = s.mode ∧
    (setVsFrom k bs s).fault = s.fault ∧ (setVsFrom k bs s).params = s.params ∧
    (setVsFrom k bs s).status = s.status ∧ (setVsFrom k bs s).draws = s.draws := by
  induction bs with
  | nil => intro k s; simp [setVsFrom]
  | cons b bs ih => intro k s; simpa [setVsFrom] using ih (k + 1) (s.setV (Fin.ofNat 16 k) b)

@[simp] theorem setVsFrom_i (k : Nat) (bs : List Byte) : (setVsFrom k bs s).i = s.i := by
  simp [setVsFrom_fields]
@[simp] theorem setVsFrom_pc (k : Nat) (bs : List Byte) : (setVsFrom k bs s).pc = s.pc := by
  simp [setVsFrom_fields]
@[simp] theorem setVsFrom_stack (k : Nat) (bs : List Byte) : (setVsFrom k bs s).stack = s.stack := by
  simp [setVsFrom_fields]
@[simp] theorem setVsFrom_dt (k : Nat) (bs : List Byte) : (setVsFrom k bs s).dt = s.dt := by
  simp [setVsFrom_fields]
@[simp] theorem setVsFrom_st (k : Nat) (bs : List Byte) : (setVsFrom k bs s).st = s.st := by
  simp [setVsFrom_fields]
@[simp] theorem setVsFrom_mem (k : Nat) (bs : List Byte) : (setVsFrom k bs s).mem = s.mem := by
  simp [setVsFrom_fields]
@[simp] theorem setVsFrom_fb (k : Nat) (bs : List Byte) : (setVsFrom k bs s).fb = s.fb := by
  simp [setVsFrom_fields]
@[simp] theorem setVsFrom_keys (k : Nat) (bs : List Byte) : (setVsFrom k bs s).keys = s.keys := by
  simp [setVsFrom_fields]
@[simp] theorem setVsFrom_mode (k : Nat) (bs : List Byte) : (setVsFrom k bs s).mode = s.mode := by
  simp [setVsFrom_fields]
@[simp] theorem setVsFrom_fault (k : Nat) (bs : List Byte) : (setVsFrom k bs s).fault = s.fault := by
  simp [setVsFrom_fields]
@[simp] theorem setVsFrom_params (k : Nat) (bs : List Byte) : (setVsFrom k bs s).params = s.params := by
  simp [setVsFrom_fields]
@[simp] theorem setVsFrom_status (k : Nat) (bs : List Byte) : (setVsFrom k bs s).status = s.status := by
  simp [setVsFrom_fields]
@[simp] theorem setVsFrom_draws (k : Nat) (bs : List Byte) : (setVsFrom k bs s).draws = s.draws := by
  simp [setVsFrom_fields]

/-- After `V[k] <- b0, V[k+1] <- b1, ...` register `r` holds byte `r - k` if it is one of them, else its old value. -/
theorem getV_setVsFrom (bs : List Byte) : ∀ (k : Nat) (s : State) (r : Reg), k + bs.length ≤ 16 →
    (setVsFrom k bs s).getV r =
      if h : k ≤ r.val ∧ r.val < k + bs.length then bs[r.val - k]'(by omega) else s.getV r := by
  induction bs with
  | nil => intro k s r _; simp [setVsFrom]
  | cons b bs ih =>
    intro k s r hk
    simp only [List.length_cons] at hk ⊢
    have hkv : (Fin.ofNat 16 k).val = k := Nat.mod_eq_of_lt (by omega)
    rw [setVsFrom, ih (k + 1) _ r (by omega)]
    by_cases h1 : r.val = k
    · subst h1
      have hr : Fin.ofNat 16 r.val = r := Fin.ext hkv
      rw [dif_neg (by omega), dif_pos (by omega), hr]
      simp
    · have hr : r ≠ Fin.ofNat 16 k := fun e => h1 (by rw [e, hkv])
      by_cases h2 : k + 1 ≤ r.val ∧ r.val < k + 1 + bs.length
      · rw [dif_pos h2, dif_pos (by omega)]
        rw [List.getElem_cons, dif_neg (by omega)]
        congr 1
      · rw [dif_neg h2, dif_neg (by omega), getV_setV_ne _ _ _ _ hr]

/-- The values of V0..Vx, as a list of `x + 1` bytes. -/
@[simp] theorem firstVs_length (x : Reg) : (s.firstVs x).length = x.val + 1 := by
  simp [State.firstVs]

theorem firstVs_getElem (x : Reg) (k : Nat) (h : k < (s.firstVs x).length) :
    (s.firstVs x)[k] = s.getV ⟨k, by simp at h; omega⟩ := by
  simp [State.firstVs, State.getV]

end Sys2Proof.Machine
end

