-- ==== Sys2Proof/Laws/Keys.lean ====
section
/-! SUPPORT. The laws of the key flags: what `KEY_SELECT` answers (45_input_timers.md R216). -/

namespace Sys2Proof.Machine

variable (keys : Vector Bool 16)

theorem keyPressed_of_lt (k : Nat) (h : k < 16) : keyPressed keys k = keys[k] := dif_pos h

/-- A number of 16 or more is never pressed (R212). -/
theorem keyPressed_of_ge (k : Nat) (h : 16 ≤ k) : keyPressed keys k = false := dif_neg (by omega)

theorem mem_allKeys (k : Key) : k ∈ allKeys := by revert k; decide

/-- The pressed keys are exactly the keys whose flag is set. -/
theorem mem_pressedKeys (k : Key) : k ∈ pressedKeys keys ↔ keyPressed keys k.val = true := by
  simp [pressedKeys, mem_allKeys]

theorem pressedKeys_eq_nil : pressedKeys keys = [] ↔ ∀ k : Key, keyPressed keys k.val = false := by
  rw [List.eq_nil_iff_forall_not_mem]
  simp [mem_pressedKeys]

/-- The pressed keys stand in rising order. -/
theorem pressedKeys_sorted : (pressedKeys keys).Pairwise (· < ·) :=
  List.Pairwise.filter _ (by decide)

theorem head?_pressedKeys_none : (pressedKeys keys).head? = none ↔ ∀ k : Key, keyPressed keys k.val = false := by
  rw [List.head?_eq_none_iff, pressedKeys_eq_nil]

/-- The lowest pressed key: pressed, and no lower key is. -/
theorem head?_pressedKeys_some (j : Key) (h : (pressedKeys keys).head? = some j) :
    keyPressed keys j.val = true ∧ ∀ k : Key, keyPressed keys k.val = true → j ≤ k := by
  cases hp : pressedKeys keys with
  | nil => rw [hp] at h; cases h
  | cons a l =>
    rw [hp] at h
    cases h
    have hs := pressedKeys_sorted keys
    rw [hp, List.pairwise_cons] at hs
    refine ⟨(mem_pressedKeys keys j).1 (by rw [hp]; exact List.mem_cons_self), fun k hk => ?_⟩
    have hk' := (mem_pressedKeys keys k).2 hk
    rw [hp] at hk'
    rcases List.mem_cons.1 hk' with rfl | hk'
    · exact Fin.le_refl _
    · exact Fin.le_of_lt (hs.1 k hk')

theorem tableChoice_some (rows : List (Vector Bool 16 × Key)) (j : Key) (h : tableChoice rows keys = some j) :
    keyPressed keys j.val = true := by
  unfold tableChoice at h
  split at h
  · next r hr =>
    cases h
    have := List.find?_some hr
    simp only [Bool.and_eq_true] at this
    exact this.2
  · exact (head?_pressedKeys_some keys j h).1

theorem tableChoice_none (rows : List (Vector Bool 16 × Key)) :
    tableChoice rows keys = none ↔ ∀ k : Key, keyPressed keys k.val = false := by
  refine ⟨fun h => ?_, fun h => ?_⟩
  · unfold tableChoice at h
    split at h
    · cases h
    · exact (head?_pressedKeys_none keys).1 h
  · cases hc : tableChoice rows keys with
    | none => rfl
    | some j => have := tableChoice_some keys rows j hc; rw [h j] at this; cases this

theorem freeChoice_some (n : Nat) (j : Key) (h : freeChoice n keys = some j) : keyPressed keys j.val = true :=
  (mem_pressedKeys keys j).1 (List.mem_of_getElem? h)

theorem freeChoice_none (n : Nat) : freeChoice n keys = none ↔ ∀ k : Key, keyPressed keys k.val = false := by
  rw [← pressedKeys_eq_nil, freeChoice, List.getElem?_eq_none_iff]
  refine ⟨fun h => ?_, fun h => by rw [h]; simp⟩
  by_contra hne
  have := Nat.mod_lt n (List.length_pos_of_ne_nil hne)
  omega

/-- `KEY_SELECT` answers none exactly when no key is pressed. -/
theorem anyPressed_none (s : State) : anyPressed s = none ↔ ∀ k : Key, keyPressed s.keys k.val = false := by
  unfold anyPressed
  split
  · exact head?_pressedKeys_none s.keys
  · exact tableChoice_none s.keys _
  · exact freeChoice_none s.keys _

/-- Every key `KEY_SELECT` answers is pressed. -/
theorem anyPressed_some (s : State) (j : Key) (h : anyPressed s = some j) : keyPressed s.keys j.val = true := by
  unfold anyPressed at h
  split at h
  · exact (head?_pressedKeys_some s.keys j h).1
  · exact tableChoice_some s.keys _ j h
  · exact freeChoice_some s.keys _ j h

/-- `KEY_SELECT` reads the key flags, the parameters and the draw counter, nothing else. -/
theorem anyPressed_congr (s t : State) (hk : t.keys = s.keys) (hp : t.params = s.params) (hd : t.draws = s.draws) :
    anyPressed t = anyPressed s := by
  unfold anyPressed
  rw [hk, hp, hd]

end Sys2Proof.Machine
end

