-- ==== Sys2Proof/Laws/Memory.lean ====
section
/-! SUPPORT. The laws of memory: read after write, the canonical form, and one specification per access of
20_memory.md. -/

namespace Sys2Proof.Machine

variable (p : Params)

/-! ### Cells -/

/-- An address below every listed one reads as the background. -/
theorem read_below (m : Memory) (a : Nat) (h : ∀ c ∈ m, a < c.1) :
    Memory.read p m a = Memory.background p a := by
  induction m with
  | nil => rfl
  | cons c m ih =>
    rw [List.forall_mem_cons] at h
    rw [Memory.read, if_neg (by omega), ih h.2]

theorem mem_erase (a : Nat) (m : Memory) (c : Host.Cell) (h : c ∈ Memory.erase a m) : c ∈ m := by
  induction m with
  | nil => exact h
  | cons d m ih =>
    rw [Memory.erase] at h
    split at h
    · exact List.mem_cons_of_mem _ h
    · rcases List.mem_cons.1 h with h | h
      · exact List.mem_cons.2 (.inl h)
      · exact List.mem_cons_of_mem _ (ih h)

theorem mem_insert (a : Nat) (b : Byte) (m : Memory) (c : Host.Cell) (h : c ∈ Memory.insert a b m) :
    c = (a, b) ∨ c ∈ m := by
  induction m with
  | nil => simpa [Memory.insert] using h
  | cons d m ih =>
    rw [Memory.insert] at h
    split at h
    · simpa using h
    · split at h
      · rcases List.mem_cons.1 h with h | h
        · exact .inl h
        · exact .inr (List.mem_cons_of_mem _ h)
      · rcases List.mem_cons.1 h with h | h
        · exact .inr (List.mem_cons.2 (.inl h))
        · exact (ih h).imp_right (List.mem_cons_of_mem _)

theorem erase_sorted (a : Nat) (m : Memory) (h : m.Pairwise (fun c d => c.1 < d.1)) :
    (Memory.erase a m).Pairwise (fun c d => c.1 < d.1) := by
  induction m with
  | nil => exact h
  | cons d m ih =>
    rw [List.pairwise_cons] at h
    rw [Memory.erase]
    split
    · exact h.2
    · exact List.pairwise_cons.2 ⟨fun c hc => h.1 c (mem_erase a m c hc), ih h.2⟩

theorem insert_sorted (a : Nat) (b : Byte) (m : Memory) (h : m.Pairwise (fun c d => c.1 < d.1)) :
    (Memory.insert a b m).Pairwise (fun c d => c.1 < d.1) := by
  induction m with
  | nil => simp [Memory.insert]
  | cons d m ih =>
    have h' := List.pairwise_cons.1 h
    rw [Memory.insert]
    split
    · next hlt =>
      refine List.pairwise_cons.2 ⟨fun c hc => ?_, h⟩
      rcases List.mem_cons.1 hc with rfl | hc
      · exact hlt
      · exact Nat.lt_trans hlt (h'.1 c hc)
    · split
      · next heq => exact List.pairwise_cons.2 ⟨fun c hc => by subst heq; exact h'.1 c hc, h'.2⟩
      · refine List.pairwise_cons.2 ⟨fun c hc => ?_, ih h'.2⟩
        rcases mem_insert a b m c hc with rfl | hc
        · simp; omega
        · exact h'.1 c hc

/-- Reading after an insert: the inserted byte at its address, the old one elsewhere. -/
theorem read_insert (m : Memory) (a : Nat) (b : Byte) (x : Nat) :
    Memory.read p (Memory.insert a b m) x = if x = a then b else Memory.read p m x := by
  induction m with
  | nil => simp [Memory.insert, Memory.read]
  | cons c m ih =>
    rw [Memory.insert]
    split
    · simp [Memory.read]
    · split
      · next h => simp only [Memory.read, h]; split <;> rfl
      · simp only [Memory.read, ih]
        by_cases hx : x = a <;> by_cases hc : x = c.1 <;> simp_all

/-- Reading after an erase: the background at the erased address, the old byte elsewhere. -/
theorem read_erase (m : Memory) (h : m.Pairwise (fun c d => c.1 < d.1)) (a x : Nat) :
    Memory.read p (Memory.erase a m) x = if x = a then Memory.background p a else Memory.read p m x := by
  induction m with
  | nil => simp only [Memory.erase, Memory.read]; split <;> simp_all
  | cons c m ih =>
    have h' := List.pairwise_cons.1 h
    rw [Memory.erase]
    split
    · next hc =>
      split
      · next hx => subst hx; exact read_below p m _ (fun d hd => by have := h'.1 d hd; omega)
      · next hx => rw [Memory.read, if_neg (by omega)]
    · simp only [Memory.read, ih h'.2]
      by_cases hx : x = a <;> by_cases hc : x = c.1 <;> simp_all

/-- Read after write: the written byte at its address, the old one elsewhere. -/
theorem read_write (m : Memory) (h : m.Pairwise (fun c d => c.1 < d.1)) (a : Nat) (b : Byte) (x : Nat) :
    Memory.read p (Memory.write p m a b) x = if x = a then b else Memory.read p m x := by
  rw [Memory.write]
  split
  · next hb => rw [read_erase p m h, hb]
  · exact read_insert p m a b x

/-- A write inside the address space keeps the canonical form. -/
theorem write_wf (m : Memory) (a : Nat) (b : Byte) (ha : a < memSize) (h : Memory.wf p m) :
    Memory.wf p (Memory.write p m a b) := by
  rw [Memory.write]
  split
  · exact ⟨erase_sorted a m h.1, fun c hc => h.2 c (mem_erase a m c hc)⟩
  · next hb =>
    refine ⟨insert_sorted a b m h.1, fun c hc => ?_⟩
    rcases mem_insert a b m c hc with rfl | hc
    · exact ⟨ha, hb⟩
    · exact h.2 c hc

/-- The memory that reset leaves is in canonical form. -/
theorem reset_mem_wf : Memory.wf State.reset.params State.reset.mem := by
  exact ⟨List.Pairwise.nil, fun c hc => nomatch hc⟩

/-! ### Accesses -/

theorem resolveAddr_lt (a c : Nat) (h : resolveAddr p a = .ok c) : c < memSize := by
  unfold resolveAddr at h
  split at h
  · split at h
    · cases h; assumption
    · cases h
  · cases h; exact Nat.mod_lt _ (by decide)

/-- An address resolves to its remainder mod 4096, whatever the policy (R52). -/
theorem resolveAddr_ok (a c : Nat) (h : resolveAddr p a = .ok c) : c = a % memSize := by
  unfold resolveAddr at h
  split at h
  · split at h
    · next ha => cases h; exact (Nat.mod_eq_of_lt ha).symm
    · cases h
  · cases h; rfl

/-- An AddressingError carries the address accessed, 4096 or more, and needs `ADDR_POLICY = Fault` (R52). -/
theorem resolveAddr_error (a e : Nat) (h : resolveAddr p a = .error e) :
    e = a ∧ memSize ≤ a ∧ p.addrPolicy = .fault := by
  unfold resolveAddr at h
  split at h
  · next hp =>
    split at h
    · cases h
    · cases h; exact ⟨rfl, by omega, hp⟩
  · cases h

/-- When an access at `a` succeeds: under `Wrap` always, under `Fault` below 4096. -/
theorem resolveAddr_reach (a : Nat) (h : p.addrPolicy = .wrap ∨ a < memSize) :
    resolveAddr p a = .ok (a % memSize) := by
  unfold resolveAddr
  split
  · next hp => rw [if_pos (by simpa [hp] using h), Nat.mod_eq_of_lt (by simpa [hp] using h)]
  · rfl

/-- When an access at `a` fails: under `Fault` at 4096 and above. -/
theorem resolveAddr_beyond (a : Nat) (hp : p.addrPolicy = .fault) (h : memSize ≤ a) :
    resolveAddr p a = .error a := by
  unfold resolveAddr
  rw [hp]
  exact if_neg (by omega)

theorem memRead_ok (s : State) (a : Nat) (b : Byte) (h : s.memRead a = .ok b) :
    resolveAddr s.params a = .ok (a % memSize) ∧ b = Memory.read s.params s.mem (a % memSize) := by
  unfold State.memRead at h
  split at h
  · next c hc =>
    cases h
    have := resolveAddr_ok _ _ _ hc
    subst this
    exact ⟨hc, rfl⟩
  · cases h

theorem memRead_error (s : State) (a e : Nat) (h : s.memRead a = .error e) :
    resolveAddr s.params a = .error e := by
  unfold State.memRead at h
  split at h
  · cases h
  · next hc => cases h; exact hc

theorem memRead_reach (s : State) (a : Nat) (h : s.params.addrPolicy = .wrap ∨ a < memSize) :
    s.memRead a = .ok (Memory.read s.params s.mem (a % memSize)) := by
  rw [State.memRead, resolveAddr_reach _ _ h]

theorem memRead_beyond (s : State) (a : Nat) (hp : s.params.addrPolicy = .fault) (h : memSize ≤ a) :
    s.memRead a = .error a := by
  rw [State.memRead, resolveAddr_beyond _ _ hp h]

/-- A write that succeeds changes the memory only, at one cell. -/
theorem memWrite_ok (s t : State) (a : Nat) (b : Byte) (h : s.memWrite a b = .ok t) :
    resolveAddr s.params a = .ok (a % memSize) ∧
      t = s.setMem (Memory.write s.params s.mem (a % memSize) b) := by
  unfold State.memWrite at h
  split at h
  · next c hc =>
    cases h
    have := resolveAddr_ok _ _ _ hc
    subst this
    exact ⟨hc, rfl⟩
  · cases h

theorem memWrite_error (s : State) (a e : Nat) (b : Byte) (h : s.memWrite a b = .error e) :
    resolveAddr s.params a = .error e := by
  unfold State.memWrite at h
  split at h
  · cases h
  · next hc => cases h; exact hc

theorem memWrite_reach (s : State) (a : Nat) (b : Byte) (h : s.params.addrPolicy = .wrap ∨ a < memSize) :
    s.memWrite a b = .ok (s.setMem (Memory.write s.params s.mem (a % memSize) b)) := by
  rw [State.memWrite, resolveAddr_reach _ _ h]

theorem memWrite_beyond (s : State) (a : Nat) (b : Byte) (hp : s.params.addrPolicy = .fault) (h : memSize ≤ a) :
    s.memWrite a b = .error a := by
  rw [State.memWrite, resolveAddr_beyond _ _ hp h]

/-- The first address at or above `a` that does not exist. -/
def firstBeyond (a : Nat) : Nat := max a memSize

/-- Reading `n` bytes at `a` succeeds when every address is in reach, with byte `k` the one at `a + k`. -/
theorem loadBytes_reach (s : State) (n : Nat) : ∀ a, (s.params.addrPolicy = .wrap ∨ a + n ≤ memSize) →
    loadBytes s a n =
      .ok ((List.range n).map (fun k => Memory.read s.params s.mem ((a + k) % memSize))) := by
  induction n with
  | zero => intro a _; rfl
  | succ n ih =>
    intro a h
    rw [loadBytes, memRead_reach s a (h.imp_right (fun h => by omega)),
      ih (a + 1) (h.imp_right (fun h => by omega))]
    simp only [List.range_succ_eq_map, List.map_cons, List.map_map, Nat.add_zero]
    congr 3
    funext k
    simp only [Function.comp_apply]
    congr 2
    omega

/-- Reading past the end under `Fault` fails at the first address that does not exist. -/
theorem loadBytes_beyond (s : State) (hp : s.params.addrPolicy = .fault) (n : Nat) : ∀ a, n ≠ 0 → memSize < a + n →
    loadBytes s a n = .error (firstBeyond a) := by
  induction n with
  | zero => intro a h; exact absurd rfl h
  | succ n ih =>
    intro a _ h
    rw [loadBytes]
    by_cases ha : memSize ≤ a
    · rw [memRead_beyond s a hp ha, firstBeyond, Nat.max_eq_left ha]
    · rw [memRead_reach s a (.inr (by omega))]
      have hn : n ≠ 0 := by omega
      rw [ih (a + 1) hn (by omega)]
      simp only [firstBeyond]
      rw [Nat.max_eq_right (by omega), Nat.max_eq_right (by omega)]

theorem loadBytes_length (s : State) (n : Nat) : ∀ a bs, loadBytes s a n = .ok bs → bs.length = n := by
  induction n with
  | zero => intro a bs h; cases h; rfl
  | succ n ih =>
    intro a bs h
    rw [loadBytes] at h
    split at h
    · cases h
    · split at h
      · cases h
      · next bs' hbs => cases h; simp [ih _ _ hbs]

/-- Every outcome of reading `n` bytes at `a`. -/
theorem loadBytes_cases (s : State) (a n : Nat) :
    ((s.params.addrPolicy = .wrap ∨ a + n ≤ memSize ∨ n = 0) ∧ ∃ bs, loadBytes s a n = .ok bs ∧ bs.length = n) ∨
    (s.params.addrPolicy = .fault ∧ memSize < a + n ∧ n ≠ 0 ∧ loadBytes s a n = .error (firstBeyond a)) := by
  by_cases hn : n = 0
  · subst hn; exact .inl ⟨.inr (.inr rfl), [], rfl, rfl⟩
  · by_cases h : s.params.addrPolicy = .wrap ∨ a + n ≤ memSize
    · exact .inl ⟨h.imp_right .inl, _, loadBytes_reach s n a h, by simp⟩
    · have hp : s.params.addrPolicy = .fault := by
        cases hq : s.params.addrPolicy with
        | fault => rfl
        | wrap => exact absurd (.inl hq) h
      have hlt : memSize < a + n := by
        by_contra hle
        exact h (.inr (by omega))
      exact .inr ⟨hp, hlt, hn, loadBytes_beyond s hp n a hn hlt⟩

/-- A store that succeeds changes the memory only; it keeps the canonical form. -/
theorem storeBytes_ok (bs : List Byte) : ∀ (a : Nat) (s t : State), storeBytes a bs s = .ok t →
    t = s.setMem t.mem ∧ (Memory.wf s.params s.mem → Memory.wf s.params t.mem) := by
  induction bs with
  | nil => intro a s t h; cases h; exact ⟨rfl, id⟩
  | cons b bs ih =>
    intro a s t h
    rw [storeBytes] at h
    split at h
    · cases h
    · next s' hs =>
      obtain ⟨hr, rfl⟩ := memWrite_ok s s' a b hs
      obtain ⟨h1, h2⟩ := ih (a + 1) _ t h
      refine ⟨h1.trans rfl, fun hw => h2 ?_⟩
      exact write_wf _ _ _ _ (Nat.mod_lt _ (by decide)) hw

/-- A store succeeds when every address is in reach. -/
theorem storeBytes_reach (bs : List Byte) : ∀ (a : Nat) (s : State),
    (s.params.addrPolicy = .wrap ∨ a + bs.length ≤ memSize) → ∃ t, storeBytes a bs s = .ok t := by
  induction bs with
  | nil => intro a s _; exact ⟨s, rfl⟩
  | cons b bs ih =>
    intro a s h
    simp only [List.length_cons] at h
    rw [storeBytes, memWrite_reach s a b (h.imp_right (fun h => by omega))]
    exact ih (a + 1) _ (h.imp_right (fun h => by omega))

/-- A store past the end under `Fault` fails at the first address that does not exist. -/
theorem storeBytes_beyond (bs : List Byte) : ∀ (a : Nat) (s : State), s.params.addrPolicy = .fault → bs ≠ [] →
    memSize < a + bs.length → storeBytes a bs s = .error (firstBeyond a) := by
  induction bs with
  | nil => intro a s _ h; exact absurd rfl h
  | cons b bs ih =>
    intro a s hp _ h
    simp only [List.length_cons] at h
    rw [storeBytes]
    by_cases ha : memSize ≤ a
    · rw [memWrite_beyond s a b hp ha, firstBeyond, Nat.max_eq_left ha]
    · rw [memWrite_reach s a b (.inr (by omega))]
      have hn : bs ≠ [] := by rintro rfl; simp at h; omega
      simp only
      rw [ih (a + 1) (s.setMem (Memory.write s.params s.mem (a % memSize) b)) hp hn (by omega)]
      simp only [firstBeyond]
      rw [Nat.max_eq_right (by omega), Nat.max_eq_right (by omega)]

/-- Every outcome of storing `bs` at `a`. -/
theorem storeBytes_cases (bs : List Byte) (a : Nat) (s : State) :
    ((s.params.addrPolicy = .wrap ∨ a + bs.length ≤ memSize ∨ bs = []) ∧ ∃ t, storeBytes a bs s = .ok t) ∨
    (s.params.addrPolicy = .fault ∧ memSize < a + bs.length ∧ bs ≠ [] ∧
      storeBytes a bs s = .error (firstBeyond a)) := by
  by_cases hn : bs = []
  · subst hn; exact .inl ⟨.inr (.inr rfl), s, rfl⟩
  · by_cases h : s.params.addrPolicy = .wrap ∨ a + bs.length ≤ memSize
    · exact .inl ⟨h.imp_right .inl, storeBytes_reach bs a s h⟩
    · have hp : s.params.addrPolicy = .fault := by
        cases hq : s.params.addrPolicy with
        | fault => rfl
        | wrap => exact absurd (.inl hq) h
      have hlt : memSize < a + bs.length := by
        by_contra hle
        exact h (.inr (by omega))
      exact .inr ⟨hp, hlt, hn, storeBytes_beyond bs a s hp hn hlt⟩

/-- What each byte reads as after a store of at most 4096 bytes: byte `k` at the cell of `a + k`, the old byte at
every other cell. -/
theorem storeBytes_read (bs : List Byte) : ∀ (a : Nat) (s t : State),
    s.mem.Pairwise (fun c d => c.1 < d.1) → bs.length ≤ memSize → storeBytes a bs s = .ok t →
    (∀ k (hk : k < bs.length), Memory.read s.params t.mem ((a + k) % memSize) = bs[k]) ∧
    (∀ c, (∀ k < bs.length, c ≠ (a + k) % memSize) → Memory.read s.params t.mem c = Memory.read s.params s.mem c) := by
  induction bs with
  | nil => intro a s t _ _ h; cases h; exact ⟨fun k hk => absurd hk (by simp), fun c _ => rfl⟩
  | cons b bs ih =>
    intro a s t hw hl h
    rw [storeBytes] at h
    split at h
    · cases h
    · next s' hs =>
      obtain ⟨hr, rfl⟩ := memWrite_ok s s' a b hs
      simp only [List.length_cons] at hl ⊢
      have hsorted : (Memory.write s.params s.mem (a % memSize) b).Pairwise (fun c d => c.1 < d.1) := by
        rw [Memory.write]
        split
        · exact erase_sorted _ _ hw
        · exact insert_sorted _ _ _ hw
      obtain ⟨h1, h2⟩ := ih (a + 1) _ t hsorted (by omega) h
      simp only [setMem_params, setMem_mem] at h1 h2
      refine ⟨fun k hk => ?_, fun c hc => ?_⟩
      · cases k with
        | zero =>
          rw [h2 _ (fun k hk => by simp only [memSize] at hl ⊢; omega), read_write _ _ hw]
          simp
        | succ k =>
          have := h1 k (by omega)
          simp only [List.getElem_cons_succ]
          rw [← this]
          congr 2
          omega
      · rw [h2 c (fun k hk => ?_), read_write _ _ hw, if_neg (by have := hc 0 (by omega); simpa using this)]
        have := hc (k + 1) (by omega)
        rwa [show a + 1 + k = a + (k + 1) by omega]

end Sys2Proof.Machine
end

