-- ==== Sys2Proof/Laws/Cycle.lean ====
section
/-! SUPPORT. The laws of the cycle: how a step ends, the fetch, the step by mode, and for each meaning with more than
one outcome all its outcomes. -/

namespace Sys2Proof.Machine

variable (s t : State)

/-! ### The program counter -/

/-- Undoing the fetch's advance (R106, R213). -/
@[simp] theorem instrPc_nextPc (a : Word) : instrPc (nextPc a) = a := by
  simp [instrPc, nextPc]

theorem nextPc_toNat (a : Word) : (nextPc a).toNat = (a.toNat + 2) % 65536 := by
  simp [nextPc, BitVec.toNat_add]

theorem skipIf_eq (c : Bool) : skipIf c s = s.setPc (if c then nextPc s.pc else s.pc) := by
  cases c <;> rfl

/-! ### How a step ends -/

theorem finish_next : finish s = .next t ↔ t = s.setStatus .ok := by
  simp [finish, eq_comm]

theorem block_next : block s = .next t ↔ t = s.setStatus .blocked := by
  simp [block, eq_comm]

/-- A fault changes the fault status and the status returned, nothing else (R106). -/
theorem halt_next (k : FaultKind) (a : Word) (op : Option Word) (e : Option Nat) :
    halt k a op e s = .next t ↔ t = (s.setFault ⟨k, a, op, e⟩).setStatus (.faulted ⟨k, a, op, e⟩) := by
  simp [halt, eq_comm]

/-- A fault raised in a body that runs after the fetch from `s` is a fault taken on `s` itself (R106, R109). -/
theorem raise_after_fetch (k : FaultKind) (ins : Instr) (e : Option Nat) :
    raise k ins e (s.setPc (nextPc s.pc)) = halt k s.pc (some (encode ins)) e s := by
  simp [raise, halt, State.setPc, State.setFault, State.setStatus]

/-! ### The fetch -/

/-- A fetch that succeeds: the big-endian word of the two cells (R54). -/
theorem fetch_reach (a : Word) (h : s.params.addrPolicy = .wrap ∨ a.toNat + 1 < memSize) :
    fetch s a = .ok (beWord (Memory.read s.params s.mem (a.toNat % memSize))
      (Memory.read s.params s.mem ((a.toNat + 1) % memSize))) := by
  rw [fetch, memRead_reach s _ (h.imp_right (fun h => by omega)), memRead_reach s _ h]

/-- A fetch that fails: under `Fault`, at the first of the two addresses that does not exist (R54). -/
theorem fetch_beyond (a : Word) (hp : s.params.addrPolicy = .fault) (h : memSize ≤ a.toNat + 1) :
    fetch s a = .error (firstBeyond a.toNat) := by
  rw [fetch]
  by_cases ha : memSize ≤ a.toNat
  · rw [memRead_beyond s _ hp ha, firstBeyond, Nat.max_eq_left ha]
  · rw [memRead_reach s _ (.inr (by omega)), memRead_beyond s _ hp h, firstBeyond]
    have : a.toNat + 1 = max a.toNat memSize := by omega
    rw [this]

/-- Under `Fault`, a fetch succeeds only below 0xFFF. -/
theorem fetch_ok_bound (a op : Word) (hp : s.params.addrPolicy = .fault) (h : fetch s a = .ok op) :
    a.toNat + 1 < memSize := by
  by_contra hlt
  rw [fetch_beyond s a hp (by omega)] at h
  cases h

/-! ### The step, by mode -/

theorem step_faulted (r : FaultRecord) (h : s.fault = some r) : step s = .fault (.faulted r) := by
  simp [step, h]

theorem step_awaiting (x : Reg) (hf : s.fault = none) (h : s.mode = .awaitingKey x) : step s = keyResume x s := by
  simp [step, hf, h]

theorem step_running (hf : s.fault = none) (h : s.mode = .running) : step s = stepRunning s := by
  simp [step, hf, h]

theorem stepRunning_fetch_error (e : Nat) (h : fetch s s.pc = .error e) :
    stepRunning s = halt .addressingError s.pc none (some e) s := by
  simp [stepRunning, h]

theorem stepRunning_unknown (op : Word) (j : Reject) (h : fetch s s.pc = .ok op)
    (hd : decode s.params.sysPolicy op = .error j) : stepRunning s = unknownOpcode op s := by
  simp [stepRunning, h, hd]

theorem stepRunning_exec (op : Word) (i : Instr) (h : fetch s s.pc = .ok op)
    (hd : decode s.params.sysPolicy op = .ok i) : stepRunning s = exec i (s.setPc (nextPc s.pc)) := by
  simp [stepRunning, h, hd]

/-! ### Meanings with more than one outcome -/

/-- RET faults on an empty stack, else returns to the top entry (R122). -/
theorem execRet_cases :
    (s.stack = [] ∧ execRet s = raise .stackUnderflow .ret none s) ∨
    (∃ a l, s.stack = a :: l ∧ execRet s = finish ((s.setStack l).setPc a)) := by
  unfold execRet
  cases h : s.stack with
  | nil => exact .inl ⟨rfl, rfl⟩
  | cons a l => exact .inr ⟨a, l, rfl, rfl⟩

/-- CALL faults on a full stack, else pushes PC (R124). -/
theorem execCall_cases (nnn : Addr12) :
    (stackDepth ≤ s.stack.length ∧ execCall nnn s = raise .stackOverflow (.call nnn) none s) ∨
    (s.stack.length < stackDepth ∧
      execCall nnn s = finish ((s.setStack (s.pc :: s.stack)).setPc (Addr12.zext nnn))) := by
  unfold execCall
  by_cases h : s.stack.length ≥ stackDepth
  · exact .inl ⟨h, if_pos h⟩
  · exact .inr ⟨by omega, if_neg h⟩

/-- FX0A takes a pressed key, or waits (R213). -/
theorem execLdVxK_cases (x : Reg) :
    (∃ j, anyPressed s = some j ∧ execLdVxK x s = finish (s.setV x (keyCode j)).countDraw) ∨
    (anyPressed s = none ∧ execLdVxK x s = block ((s.setPc (instrPc s.pc)).setMode (.awaitingKey x))) := by
  unfold execLdVxK
  cases h : anyPressed s with
  | none => exact .inr ⟨rfl, rfl⟩
  | some j => exact .inl ⟨j, rfl, rfl⟩

/-- A waiting step takes a pressed key, or changes nothing (R215). -/
theorem keyResume_cases (x : Reg) :
    (∃ j, anyPressed s = some j ∧
      keyResume x s = finish (((s.setV x (keyCode j)).setPc (nextPc s.pc)).setMode .running).countDraw) ∨
    (anyPressed s = none ∧ keyResume x s = block s) := by
  unfold keyResume
  cases h : anyPressed s with
  | none => exact .inr ⟨rfl, rfl⟩
  | some j => exact .inl ⟨j, rfl, rfl⟩

/-- FX33 stores, or faults (R173). -/
theorem execLdB_cases (x : Reg) :
    (∃ u, storeBytes (baseAddr s) (bcdDigits (s.getV x)) s = .ok u ∧ execLdB x s = finish u) ∨
    (∃ e, storeBytes (baseAddr s) (bcdDigits (s.getV x)) s = .error e ∧
      execLdB x s = raise .addressingError (.ldB x) (some e) s) := by
  unfold execLdB
  cases h : storeBytes (baseAddr s) (bcdDigits (s.getV x)) s with
  | ok u => exact .inl ⟨u, rfl, rfl⟩
  | error e => exact .inr ⟨e, rfl, rfl⟩

/-- FX55 stores, or faults (R174). -/
theorem execLdStore_cases (x : Reg) :
    (∃ u, storeBytes (baseAddr s) (s.firstVs x) s = .ok u ∧ execLdStore x s = finish (advanceI x u)) ∨
    (∃ e, storeBytes (baseAddr s) (s.firstVs x) s = .error e ∧
      execLdStore x s = raise .addressingError (.ldStore x) (some e) s) := by
  unfold execLdStore
  cases h : storeBytes (baseAddr s) (s.firstVs x) s with
  | ok u => exact .inl ⟨u, rfl, rfl⟩
  | error e => exact .inr ⟨e, rfl, rfl⟩

/-- FX65 loads, or faults (R175). -/
theorem execLdLoad_cases (x : Reg) :
    (∃ bs, loadBytes s (baseAddr s) (x.val + 1) = .ok bs ∧
      execLdLoad x s = finish (advanceI x (setVsFrom 0 bs s))) ∨
    (∃ e, loadBytes s (baseAddr s) (x.val + 1) = .error e ∧
      execLdLoad x s = raise .addressingError (.ldLoad x) (some e) s) := by
  unfold execLdLoad
  cases h : loadBytes s (baseAddr s) (x.val + 1) with
  | ok bs => exact .inl ⟨bs, rfl, rfl⟩
  | error e => exact .inr ⟨e, rfl, rfl⟩

/-- DXYN draws, or faults (R193). -/
theorem execDrw_cases (x y : Reg) (n : Nibble) :
    (∃ rows, loadBytes s (baseAddr s) n.toNat = .ok rows ∧ execDrw x y n s = finish (drawAt x y rows s)) ∨
    (∃ e, loadBytes s (baseAddr s) n.toNat = .error e ∧
      execDrw x y n s = raise .addressingError (.drw x y n) (some e) s) := by
  unfold execDrw
  cases h : loadBytes s (baseAddr s) n.toNat with
  | ok rows => exact .inl ⟨rows, rfl, rfl⟩
  | error e => exact .inr ⟨e, rfl, rfl⟩

/-- I after FX55 or FX65 (R174, R175). -/
theorem advanceI_eq (x : Reg) :
    advanceI x s = s.setI (if s.params.ldregIncrementsI then s.i + BitVec.ofNat 16 (x.val + 1) else s.i) := by
  unfold advanceI
  split <;> rfl

/-- Unknown opcodes, by policy (R104). -/
theorem unknownOpcode_cases (op : Word) :
    (s.params.unknownPolicy = .fatal ∧ unknownOpcode op s = halt .unknownOpcode s.pc (some op) none s) ∨
    (s.params.unknownPolicy = .ignore ∧
      unknownOpcode op s = .next ((s.setPc (nextPc s.pc)).setStatus (.ignored op s.pc))) := by
  unfold unknownOpcode
  cases h : s.params.unknownPolicy with
  | fatal => exact .inl ⟨rfl, rfl⟩
  | ignore => exact .inr ⟨rfl, rfl⟩

end Sys2Proof.Machine
end

