-- ==== Sys2Proof/Laws/Display.lean ====
section
/-! SUPPORT. The laws of the display buffer: one pixel after one update, and what a blit leaves (44_display.md). -/

namespace Sys2Proof.Machine

/-- Reading a pixel after setting one: coordinates are taken mod 64 and mod 32. -/
theorem pixel_setPixel (f : FrameBuffer) (x y : Nat) (b : Bool) (x' y' : Nat) :
    pixel (setPixel f x y b) x' y' = if x' % 64 = x % 64 ∧ y' % 32 = y % 32 then b else pixel f x' y' := by
  unfold pixel setPixel
  by_cases hy : y % 32 = y' % 32
  · by_cases hx : x % 64 = x' % 64
    · simp [hx, hy]
    · simp [hy, hx, Ne.symm hx]
  · simp [hy, Ne.symm hy]

@[simp] theorem pixel_blank (x y : Nat) : pixel FrameBuffer.blank x y = false := by
  simp [pixel, FrameBuffer.blank]

/-- Two buffers with the same pixels are equal. -/
theorem frameBuffer_ext (f g : FrameBuffer) (h : ∀ x y, x < 64 → y < 32 → pixel f x y = pixel g x y) : f = g := by
  apply Vector.ext
  intro y hy
  apply Vector.ext
  intro x hx
  have := h x y hx hy
  simpa [pixel, Nat.mod_eq_of_lt hx, Nat.mod_eq_of_lt hy] using this

/-- Toggling one pixel: the pixel flips, every other pixel stays, and the collision is recorded. -/
theorem pixel_blitPixel (x y : Nat) (c : Canvas) (x' y' : Nat) :
    pixel (blitPixel x y c).1 x' y' =
      if x' % 64 = x % 64 ∧ y' % 32 = y % 32 then !pixel c.1 x' y' else pixel c.1 x' y' := by
  unfold blitPixel
  rw [pixel_setPixel]
  split
  · next h => simp [pixel, h]
  · rfl

/-- Pixel coordinates are taken mod 64 and mod 32. -/
theorem pixel_mod (f : FrameBuffer) (x y : Nat) : pixel f (x % 64) (y % 32) = pixel f x y := by
  simp [pixel]

/-- Whether a sprite row covers column `x` with a 1 bit at one of the listed offsets. -/
def rowLit (row : Byte) (x0 : Nat) (ks : List Nat) (x : Nat) : Bool :=
  ks.any (fun k => row.getLsbD (7 - k) && decide (x % 64 = (x0 + k) % 64))

/-- A row blit flips exactly the pixels of its row that the row covers, if no two offsets fall on one column. -/
theorem pixel_blitRow (row : Byte) (x0 y : Nat) (ks : List Nat) :
    ks.Pairwise (fun j k => (x0 + j) % 64 ≠ (x0 + k) % 64) → ∀ (c : Canvas) (x' y' : Nat),
    pixel (blitRow row x0 y ks c).1 x' y' =
      ((decide (y' % 32 = y % 32) && rowLit row x0 ks x') ^^ pixel c.1 x' y') := by
  induction ks with
  | nil => intro _ c x' y'; simp [blitRow, rowLit]
  | cons k ks ih =>
    intro hd c x' y'
    rw [List.pairwise_cons] at hd
    rw [blitRow, ih hd.2]
    simp only [rowLit, List.any_cons]
    by_cases hb : row.getLsbD (7 - k) = true
    · rw [if_pos hb, pixel_blitPixel]
      by_cases hy : y' % 32 = y % 32
      · by_cases hx : x' % 64 = (x0 + k) % 64
        · have hno : ks.any (fun k => row.getLsbD (7 - k) && decide (x' % 64 = (x0 + k) % 64)) = false := by
            rw [List.any_eq_false]
            intro j hj
            have := hd.1 j hj
            rw [hx]
            simp [this]
          rw [hx] at hno ⊢
          simp [hb, hy, hno]
        · simp [hx, hy]
      · simp [hy]
    · rw [if_neg hb]
      simp [hb]

/-- A row blit records a collision exactly when it covers a pixel that was on, if no two offsets fall on one
column. -/
theorem hit_blitRow (row : Byte) (x0 y : Nat) (ks : List Nat) :
    ks.Pairwise (fun j k => (x0 + j) % 64 ≠ (x0 + k) % 64) → ∀ (c : Canvas),
    (blitRow row x0 y ks c).2 = (c.2 || ks.any (fun k => row.getLsbD (7 - k) && pixel c.1 (x0 + k) y)) := by
  induction ks with
  | nil => intro _ c; simp [blitRow]
  | cons k ks ih =>
    intro hd c
    rw [List.pairwise_cons] at hd
    rw [blitRow, ih hd.2]
    simp only [List.any_cons]
    by_cases hb : row.getLsbD (7 - k) = true
    · rw [if_pos hb]
      have hsame : ks.any (fun j => row.getLsbD (7 - j) && pixel (blitPixel (x0 + k) y c).1 (x0 + j) y) =
          ks.any (fun j => row.getLsbD (7 - j) && pixel c.1 (x0 + j) y) := by
        rw [Bool.eq_iff_iff, List.any_eq_true, List.any_eq_true]
        refine exists_congr fun j => and_congr_right fun hj => ?_
        rw [pixel_blitPixel, if_neg (fun h => hd.1 j hj h.1.symm)]
      rw [hsame]
      simp [blitPixel, hb, Bool.or_assoc]
    · rw [if_neg hb]
      simp [hb]

/-- The eight column offsets of a sprite row never fall on one column. -/
theorem columns_distinct (x0 : Nat) :
    [0, 1, 2, 3, 4, 5, 6, 7].Pairwise (fun j k => (x0 + j) % 64 ≠ (x0 + k) % 64) := by
  simp only [List.pairwise_cons, List.mem_cons, List.not_mem_nil, or_false, forall_eq_or_imp, forall_eq,
    List.Pairwise.nil, IsEmpty.forall_iff, implies_true, and_true]
  omega

/-- Whether a sprite drawn at `(x0, y0)` covers the pixel `(x, y)` with a 1 bit. -/
def spriteLit (x0 : Nat) : Nat → List Byte → Nat → Nat → Bool
  | _, [], _, _ => false
  | y0, row :: rows, x, y =>
    (decide (y % 32 = y0 % 32) && rowLit row x0 [0, 1, 2, 3, 4, 5, 6, 7] x) || spriteLit x0 (y0 + 1) rows x y

theorem rowLit_iff (row : Byte) (x0 x : Nat) :
    rowLit row x0 [0, 1, 2, 3, 4, 5, 6, 7] x = true ↔
      ∃ k < 8, row.getLsbD (7 - k) = true ∧ x % 64 = (x0 + k) % 64 := by
  have hl : ∀ k, k ∈ [0, 1, 2, 3, 4, 5, 6, 7] ↔ k < 8 := by intro k; simp; omega
  simp only [rowLit, List.any_eq_true, Bool.and_eq_true, decide_eq_true_eq]
  exact exists_congr fun k => and_congr_left fun _ => hl k

/-- The pixels a sprite covers, row by row and bit by bit (R191, R193, R194). -/
theorem spriteLit_iff (x0 : Nat) (rows : List Byte) : ∀ (y0 x y : Nat),
    spriteLit x0 y0 rows x y = true ↔
      ∃ r, ∃ h : r < rows.length, ∃ k < 8,
        rows[r].getLsbD (7 - k) = true ∧ x % 64 = (x0 + k) % 64 ∧ y % 32 = (y0 + r) % 32 := by
  induction rows with
  | nil => intro y0 x y; simp [spriteLit]
  | cons row rows ih =>
    intro y0 x y
    rw [spriteLit, Bool.or_eq_true, Bool.and_eq_true, decide_eq_true_eq, rowLit_iff, ih]
    constructor
    · rintro (⟨hy, k, hk, hb, hx⟩ | ⟨r, hr, k, hk, hb, hx, hy⟩)
      · exact ⟨0, by simp, k, hk, by simpa using hb, hx, hy⟩
      · exact ⟨r + 1, by simpa using hr, k, hk, by simpa using hb, hx, by rw [hy]; congr 1; omega⟩
    · rintro ⟨r, hr, k, hk, hb, hx, hy⟩
      cases r with
      | zero => exact .inl ⟨hy, k, hk, by simpa using hb, hx⟩
      | succ r =>
        exact .inr ⟨r, by simpa using hr, k, hk, by simpa using hb, hx, by rw [hy]; congr 1; omega⟩

/-- A sprite of fewer than 32 rows does not come back to the row above it. -/
theorem spriteLit_above (x0 : Nat) (rows : List Byte) (y0 x y : Nat) (hl : rows.length < 32)
    (hy : y % 32 = y0 % 32) : spriteLit x0 (y0 + 1) rows x y = false := by
  rw [← Bool.not_eq_true, spriteLit_iff]
  rintro ⟨r, hr, k, hk, hb, hx, hy'⟩
  omega

/-- A draw flips exactly the pixels the sprite covers (R193). -/
theorem pixel_blitRows (x0 : Nat) (rows : List Byte) : ∀ (y0 : Nat) (c : Canvas) (x y : Nat), rows.length ≤ 32 →
    pixel (blitRows x0 y0 rows c).1 x y = (spriteLit x0 y0 rows x y ^^ pixel c.1 x y) := by
  induction rows with
  | nil => intro y0 c x y _; simp [blitRows, spriteLit]
  | cons row rows ih =>
    intro y0 c x y hl
    simp only [List.length_cons] at hl
    rw [blitRows, ih _ _ _ _ (by omega), pixel_blitRow _ _ _ _ (columns_distinct x0), spriteLit]
    by_cases hy : y % 32 = y0 % 32
    · rw [spriteLit_above x0 rows y0 x y (by omega) hy]; simp
    · simp [hy]

/-- A draw records a collision exactly when the sprite covers a pixel that was on (R195). -/
theorem hit_blitRows (x0 : Nat) (rows : List Byte) : ∀ (y0 : Nat) (c : Canvas), rows.length ≤ 32 →
    ((blitRows x0 y0 rows c).2 = true ↔
      c.2 = true ∨ ∃ x y, x < 64 ∧ y < 32 ∧ spriteLit x0 y0 rows x y = true ∧ pixel c.1 x y = true) := by
  induction rows with
  | nil => intro y0 c _; simp [blitRows, spriteLit]
  | cons row rows ih =>
    intro y0 c hl
    simp only [List.length_cons] at hl
    rw [blitRows, ih _ _ (by omega), hit_blitRow _ _ _ _ (columns_distinct x0), Bool.or_eq_true, or_assoc]
    refine or_congr_right ?_
    constructor
    · rintro (h | ⟨x, y, hx, hy, hs, hp⟩)
      · rw [List.any_eq_true] at h
        obtain ⟨k, hk, hb⟩ := h
        rw [Bool.and_eq_true] at hb
        refine ⟨(x0 + k) % 64, y0 % 32, Nat.mod_lt _ (by decide), Nat.mod_lt _ (by decide), ?_, ?_⟩
        · have : rowLit row x0 [0, 1, 2, 3, 4, 5, 6, 7] ((x0 + k) % 64) = true := by
            rw [rowLit, List.any_eq_true]
            exact ⟨k, hk, by simp [hb.1]⟩
          simp [spriteLit, this]
        · rw [pixel_mod]; exact hb.2
      · refine ⟨x, y, hx, hy, by simp [spriteLit, hs], ?_⟩
        rw [pixel_blitRow _ _ _ _ (columns_distinct x0)] at hp
        have : ¬ y % 32 = y0 % 32 := by
          intro hyy
          rw [spriteLit_above x0 rows y0 x y (by omega) hyy] at hs
          cases hs
        simpa [this] using hp
    · rintro ⟨x, y, hx, hy, hs, hp⟩
      rw [spriteLit, Bool.or_eq_true, Bool.and_eq_true, decide_eq_true_eq] at hs
      rcases hs with ⟨hyy, hr⟩ | hs
      · left
        obtain ⟨k, hk, hb, hxk⟩ := (rowLit_iff row x0 x).1 hr
        rw [List.any_eq_true]
        refine ⟨k, by simp; omega, ?_⟩
        rw [← pixel_mod, ← hxk, ← hyy, pixel_mod]
        simp [hb, hp]
      · right
        have : ¬ y % 32 = y0 % 32 := by
          intro hyy
          rw [spriteLit_above x0 rows y0 x y (by omega) hyy] at hs
          cases hs
        refine ⟨x, y, hx, hy, hs, ?_⟩
        rw [pixel_blitRow _ _ _ _ (columns_distinct x0)]
        simp [this, hp]

/-- The pixels after `draw(x0, y0, rows)`. -/
theorem pixel_drawSprite (f : FrameBuffer) (x0 y0 : Nat) (rows : List Byte) (x y : Nat) (hl : rows.length ≤ 32) :
    pixel (drawSprite f x0 y0 rows).1 x y = (spriteLit x0 y0 rows x y ^^ pixel f x y) :=
  pixel_blitRows x0 rows y0 (f, false) x y hl

/-- What `draw(x0, y0, rows)` answers. -/
theorem hit_drawSprite (f : FrameBuffer) (x0 y0 : Nat) (rows : List Byte) (hl : rows.length ≤ 32) :
    (drawSprite f x0 y0 rows).2 = true ↔
      ∃ x y, x < 64 ∧ y < 32 ∧ spriteLit x0 y0 rows x y = true ∧ pixel f x y = true := by
  rw [drawSprite, hit_blitRows x0 rows y0 (f, false) hl]
  simp

end Sys2Proof.Machine
end

