-- ==== Sys2Proof/Laws/HostOps.lean ====
section
/-! SUPPORT. The laws of the host's operations (60_exceptions.md, 70_reset_and_hazards.md) and of the placing of an
instruction. -/

namespace Sys2Proof.Machine

variable (s t : State)

/-- One tick: down by 1, never below 0 (R240). -/
theorem tickTimer_toNat (b : Byte) : (tickTimer b).toNat = b.toNat - 1 := by
  have := b.isLt
  unfold tickTimer
  split
  · rw [BitVec.toNat_sub]
    have : (1 : Byte).toNat = 1 := rfl
    omega
  · omega

@[simp] theorem tick_dt : s.tick.dt = tickTimer s.dt := rfl
@[simp] theorem tick_st : s.tick.st = tickTimer s.st := rfl

/-- A tick changes the two timers, nothing else (R240). -/
theorem tick_eq : s.tick = { s with dt := tickTimer s.dt, st := tickTimer s.st } := rfl

/-- `set_key` changes the key flags at most (R251). -/
theorem setKey_eq (k : Nat) (b : Bool) : s.setKey k b = s.setKeys (s.setKey k b).keys := by
  unfold State.setKey
  split <;> rfl

theorem keyPressed_setKey (k : Nat) (b : Bool) (j : Nat) (hk : k < 16) :
    keyPressed (s.setKey k b).keys j = if j = k then b else keyPressed s.keys j := by
  unfold State.setKey keyPressed
  rw [dif_pos hk]
  by_cases hj : j < 16
  · simp only [hj, dif_pos, setKeys_keys, Vector.getElem_set]
    by_cases h : k = j
    · simp [h]
    · simp [h, Ne.symm h]
  · have : j ≠ k := by omega
    simp [hj, this]

/-- A bulk write past the end fails (R55). -/
theorem load_beyond (offset : Nat) (bs : List Byte) (h : memSize < offset + bs.length) :
    s.load offset bs = .error .addressingError := by
  rw [State.load, if_pos h]

/-- A bulk write inside memory is a store of its bytes, whatever the policy (R55). -/
theorem load_reach (offset : Nat) (bs : List Byte) (h : offset + bs.length ≤ memSize) :
    ∃ u, storeBytes offset bs s = .ok u ∧ s.load offset bs = .ok u := by
  obtain ⟨u, hu⟩ := storeBytes_reach bs offset s (.inr h)
  exact ⟨u, hu, by rw [State.load, if_neg (by omega), hu]⟩

/-- A reset with a ROM that fits builds the fresh machine and stores the ROM (R270). -/
theorem resetRom_fits (rom : List Byte) (h : rom.length ≤ progMax) :
    ∃ u, storeBytes progStart rom s.cleared = .ok u ∧ s.resetRom rom = .ok u := by
  obtain ⟨u, hu, hl⟩ := load_reach s.cleared progStart rom (by simp only [progMax, progStart, memSize] at h ⊢; omega)
  exact ⟨u, hu, by rw [State.resetRom, if_neg (by omega), hl]⟩

theorem resetRom_too_large (rom : List Byte) (h : progMax < rom.length) :
    s.resetRom rom = .error .programTooLarge := by
  rw [State.resetRom, if_pos h]

/-- A schedule is its first operations, then the others. -/
theorem runSchedule_append (ops ops' : List HostOp) : ∀ s,
    runSchedule (ops ++ ops') s = runSchedule ops' (runSchedule ops s) := by
  induction ops with
  | nil => intro s; rfl
  | cons op ops ih => intro s; exact ih (s.apply op)

/-- What holds of a machine and is kept by every operation holds after every schedule. -/
theorem runSchedule_induction (P : State → Prop) (hstep : ∀ s op, P s → P (s.apply op)) (ops : List HostOp) :
    ∀ s, P s → P (runSchedule ops s) := by
  induction ops with
  | nil => intro s h; exact h
  | cons op ops ih => intro s h; exact ih _ (hstep s op h)

@[simp] theorem apply_snapshot : s.apply .snapshot = s := rfl
@[simp] theorem apply_soundActive : s.apply .soundActive = s := rfl
@[simp] theorem answer_snapshot : s.answer .snapshot = .view s.fb := rfl
@[simp] theorem answer_soundActive : s.answer .soundActive = .sound s.soundActive := rfl

/-- A step that answers a next state returns the status stored there (R13, log 2). -/
theorem answer_step_next (h : step s = .next t) : s.answer .step = .status t.status := by
  rw [State.answer, h]

/-- A step of a faulted machine returns its record (R100). -/
theorem answer_step_faulted (r : FaultRecord) (h : s.fault = some r) :
    s.answer .step = .status (some (.faulted r)) := by
  rw [State.answer, step_faulted s r h]

@[simp] theorem stateAt_zero (σ : Schedule) : σ.stateAt s 0 = s := rfl

theorem stateAt_succ_of_some (σ : Schedule) (n : Nat) (op : HostOp) (h : σ.op? n = some op) :
    σ.stateAt s (n + 1) = (σ.stateAt s n).apply op := by
  rw [Schedule.stateAt, h]

theorem stateAt_succ_of_none (σ : Schedule) (n : Nat) (h : σ.op? n = none) :
    σ.stateAt s (n + 1) = σ.stateAt s n := by
  rw [Schedule.stateAt, h]

/-- What holds of a machine and is kept by every operation holds at every place of every run, finite or infinite. -/
theorem stateAt_induction (P : State → Prop) (hstep : ∀ s op, P s → P (s.apply op)) (σ : Schedule) (hs : P s) :
    ∀ n, P (σ.stateAt s n) := by
  intro n
  induction n with
  | zero => exact hs
  | succ n ih =>
    cases h : σ.op? n with
    | some op => rw [stateAt_succ_of_some s σ n op h]; exact hstep _ op ih
    | none => rw [stateAt_succ_of_none s σ n h]; exact ih

/-- A finite run is the run of its list: at place `n` the machine is what the first `n` operations leave. -/
theorem stateAt_finite (ops : List HostOp) (n : Nat) :
    (Schedule.finite ops).stateAt s n = runSchedule (ops.take n) s := by
  induction n with
  | zero => rfl
  | succ n ih =>
    cases h : ops[n]? with
    | some op =>
      rw [stateAt_succ_of_some s (.finite ops) n op h, ih, List.take_add_one, h, runSchedule_append]
      rfl
    | none => rw [stateAt_succ_of_none s (.finite ops) n h, ih, List.take_add_one, h, Option.toList_none, List.append_nil]

/-- An infinite run up to place `n` is the run of its first `n` operations. -/
theorem stateAt_infinite (op : Nat → HostOp) (n : Nat) :
    (Schedule.infinite op).stateAt s n = runSchedule ((List.range n).map op) s := by
  induction n with
  | zero => rfl
  | succ n ih =>
    rw [stateAt_succ_of_some s _ n (op n) rfl, ih, List.range_succ, List.map_append, runSchedule_append]
    rfl

/-- A word placed where it can be fetched is fetched. -/
theorem fetch_placeWord (a op : Word) (hw : s.mem.Pairwise (fun c d => c.1 < d.1))
    (h : a.toNat + 1 < memSize) : fetch (s.placeWord a op) a = .ok op := by
  obtain ⟨u, hu⟩ := storeBytes_reach [hiByte op, loByte op] a.toNat s (.inr h)
  have hmem := (storeBytes_ok _ _ _ _ hu).1
  have hr := (storeBytes_read _ _ _ _ hw (by simp [memSize]) hu).1
  have h0 := hr 0 (by simp)
  have h1 := hr 1 (by simp)
  simp only [Nat.add_zero, List.getElem_cons_zero, List.getElem_cons_succ] at h0 h1
  have hp : u.params = s.params := by rw [hmem]; rfl
  rw [State.placeWord, hu]
  simp only
  rw [fetch_reach u a (.inr h), hp, h0, h1, beWord_hiByte_loByte]

end Sys2Proof.Machine
end

