-- ==== Sys2Proof/Laws/PerInstr.lean ====
section
/-! SUPPORT. Statements made of each instruction as syntax. OpcodeRow: the word the encoder gives an instruction
carries the fixed bits of its row of opcode_table.json. -/

namespace Sys2Proof.Laws.OpcodeRow

/-- The fixed bits of each instruction's row of opcode_table.json: high bit, low bit, value. -/
def fixedBits : Instr → List (Nat × Nat × Nat)
  | .sys _ => [(15, 12, 0x0)]
  | .cls => [(15, 0, 0xE0)]
  | .ret => [(15, 0, 0xEE)]
  | .jp _ => [(15, 12, 0x1)]
  | .call _ => [(15, 12, 0x2)]
  | .seImm _ _ => [(15, 12, 0x3)]
  | .sneImm _ _ => [(15, 12, 0x4)]
  | .seReg _ _ => [(3, 0, 0x0), (15, 12, 0x5)]
  | .ldImm _ _ => [(15, 12, 0x6)]
  | .addImm _ _ => [(15, 12, 0x7)]
  | .ldReg _ _ => [(3, 0, 0x0), (15, 12, 0x8)]
  | .orReg _ _ => [(3, 0, 0x1), (15, 12, 0x8)]
  | .andReg _ _ => [(3, 0, 0x2), (15, 12, 0x8)]
  | .xorReg _ _ => [(3, 0, 0x3), (15, 12, 0x8)]
  | .addReg _ _ => [(3, 0, 0x4), (15, 12, 0x8)]
  | .sub _ _ => [(3, 0, 0x5), (15, 12, 0x8)]
  | .shr _ _ => [(3, 0, 0x6), (15, 12, 0x8)]
  | .subn _ _ => [(3, 0, 0x7), (15, 12, 0x8)]
  | .shl _ _ => [(3, 0, 0xE), (15, 12, 0x8)]
  | .sneReg _ _ => [(3, 0, 0x0), (15, 12, 0x9)]
  | .ldI _ => [(15, 12, 0xA)]
  | .jpV0 _ => [(15, 12, 0xB)]
  | .rnd _ _ => [(15, 12, 0xC)]
  | .drw _ _ _ => [(15, 12, 0xD)]
  | .skp _ => [(7, 0, 0x9E), (15, 12, 0xE)]
  | .sknp _ => [(7, 0, 0xA1), (15, 12, 0xE)]
  | .ldVxDt _ => [(7, 0, 0x7), (15, 12, 0xF)]
  | .ldVxK _ => [(7, 0, 0xA), (15, 12, 0xF)]
  | .ldDtVx _ => [(7, 0, 0x15), (15, 12, 0xF)]
  | .ldStVx _ => [(7, 0, 0x18), (15, 12, 0xF)]
  | .addI _ => [(7, 0, 0x1E), (15, 12, 0xF)]
  | .ldF _ => [(7, 0, 0x29), (15, 12, 0xF)]
  | .ldB _ => [(7, 0, 0x33), (15, 12, 0xF)]
  | .ldStore _ => [(7, 0, 0x55), (15, 12, 0xF)]
  | .ldLoad _ => [(7, 0, 0x65), (15, 12, 0xF)]

/-- The word has the value of each fixed field of the instruction's row. -/
def Statement (i : Instr) : Prop :=
  ∀ f ∈ fixedBits i, (encode i).toNat / 2 ^ f.2.1 % 2 ^ (f.1 - f.2.1 + 1) = f.2.2

theorem sys (nnn : Addr12) : Statement (.sys nnn) := by
  have h := wordNNN_toNat 0x0 nnn; have := nnn.isLt
  intro f hf
  simp only [fixedBits, List.mem_cons, List.not_mem_nil, or_false] at hf
  subst hf
  simp only [encode, h]; simp; omega

theorem cls : Statement .cls := by
  intro f hf
  simp only [fixedBits, List.mem_cons, List.not_mem_nil, or_false] at hf
  subst hf
  rfl

theorem ret : Statement .ret := by
  intro f hf
  simp only [fixedBits, List.mem_cons, List.not_mem_nil, or_false] at hf
  subst hf
  rfl

theorem jp (nnn : Addr12) : Statement (.jp nnn) := by
  have h := wordNNN_toNat 0x1 nnn; have := nnn.isLt
  intro f hf
  simp only [fixedBits, List.mem_cons, List.not_mem_nil, or_false] at hf
  subst hf
  simp only [encode, h]; simp; omega

theorem call (nnn : Addr12) : Statement (.call nnn) := by
  have h := wordNNN_toNat 0x2 nnn; have := nnn.isLt
  intro f hf
  simp only [fixedBits, List.mem_cons, List.not_mem_nil, or_false] at hf
  subst hf
  simp only [encode, h]; simp; omega

theorem seImm (x : Reg) (nn : Byte) : Statement (.seImm x nn) := by
  have h := wordXNN_toNat 0x3 x nn; have := x.isLt; have := nn.isLt
  intro f hf
  simp only [fixedBits, List.mem_cons, List.not_mem_nil, or_false] at hf
  subst hf
  simp only [encode, h]; simp; omega

theorem sneImm (x : Reg) (nn : Byte) : Statement (.sneImm x nn) := by
  have h := wordXNN_toNat 0x4 x nn; have := x.isLt; have := nn.isLt
  intro f hf
  simp only [fixedBits, List.mem_cons, List.not_mem_nil, or_false] at hf
  subst hf
  simp only [encode, h]; simp; omega

theorem seReg (x y : Reg) : Statement (.seReg x y) := by
  have h := wordXYN_toNat 0x5 x y 0x0; have := x.isLt; have := y.isLt
  intro f hf
  simp only [fixedBits, List.mem_cons, List.not_mem_nil, or_false] at hf
  rcases hf with rfl | rfl <;> (simp only [encode, h]; simp; omega)

theorem ldImm (x : Reg) (nn : Byte) : Statement (.ldImm x nn) := by
  have h := wordXNN_toNat 0x6 x nn; have := x.isLt; have := nn.isLt
  intro f hf
  simp only [fixedBits, List.mem_cons, List.not_mem_nil, or_false] at hf
  subst hf
  simp only [encode, h]; simp; omega

theorem addImm (x : Reg) (nn : Byte) : Statement (.addImm x nn) := by
  have h := wordXNN_toNat 0x7 x nn; have := x.isLt; have := nn.isLt
  intro f hf
  simp only [fixedBits, List.mem_cons, List.not_mem_nil, or_false] at hf
  subst hf
  simp only [encode, h]; simp; omega

theorem ldReg (x y : Reg) : Statement (.ldReg x y) := by
  have h := wordXYN_toNat 0x8 x y 0x0; have := x.isLt; have := y.isLt
  intro f hf
  simp only [fixedBits, List.mem_cons, List.not_mem_nil, or_false] at hf
  rcases hf with rfl | rfl <;> (simp only [encode, h]; simp; omega)

theorem orReg (x y : Reg) : Statement (.orReg x y) := by
  have h := wordXYN_toNat 0x8 x y 0x1; have := x.isLt; have := y.isLt
  intro f hf
  simp only [fixedBits, List.mem_cons, List.not_mem_nil, or_false] at hf
  rcases hf with rfl | rfl <;> (simp only [encode, h]; simp; omega)

theorem andReg (x y : Reg) : Statement (.andReg x y) := by
  have h := wordXYN_toNat 0x8 x y 0x2; have := x.isLt; have := y.isLt
  intro f hf
  simp only [fixedBits, List.mem_cons, List.not_mem_nil, or_false] at hf
  rcases hf with rfl | rfl <;> (simp only [encode, h]; simp; omega)

theorem xorReg (x y : Reg) : Statement (.xorReg x y) := by
  have h := wordXYN_toNat 0x8 x y 0x3; have := x.isLt; have := y.isLt
  intro f hf
  simp only [fixedBits, List.mem_cons, List.not_mem_nil, or_false] at hf
  rcases hf with rfl | rfl <;> (simp only [encode, h]; simp; omega)

theorem addReg (x y : Reg) : Statement (.addReg x y) := by
  have h := wordXYN_toNat 0x8 x y 0x4; have := x.isLt; have := y.isLt
  intro f hf
  simp only [fixedBits, List.mem_cons, List.not_mem_nil, or_false] at hf
  rcases hf with rfl | rfl <;> (simp only [encode, h]; simp; omega)

theorem sub (x y : Reg) : Statement (.sub x y) := by
  have h := wordXYN_toNat 0x8 x y 0x5; have := x.isLt; have := y.isLt
  intro f hf
  simp only [fixedBits, List.mem_cons, List.not_mem_nil, or_false] at hf
  rcases hf with rfl | rfl <;> (simp only [encode, h]; simp; omega)

theorem shr (x y : Reg) : Statement (.shr x y) := by
  have h := wordXYN_toNat 0x8 x y 0x6; have := x.isLt; have := y.isLt
  intro f hf
  simp only [fixedBits, List.mem_cons, List.not_mem_nil, or_false] at hf
  rcases hf with rfl | rfl <;> (simp only [encode, h]; simp; omega)

theorem subn (x y : Reg) : Statement (.subn x y) := by
  have h := wordXYN_toNat 0x8 x y 0x7; have := x.isLt; have := y.isLt
  intro f hf
  simp only [fixedBits, List.mem_cons, List.not_mem_nil, or_false] at hf
  rcases hf with rfl | rfl <;> (simp only [encode, h]; simp; omega)

theorem shl (x y : Reg) : Statement (.shl x y) := by
  have h := wordXYN_toNat 0x8 x y 0xE; have := x.isLt; have := y.isLt
  intro f hf
  simp only [fixedBits, List.mem_cons, List.not_mem_nil, or_false] at hf
  rcases hf with rfl | rfl <;> (simp only [encode, h]; simp; omega)

theorem sneReg (x y : Reg) : Statement (.sneReg x y) := by
  have h := wordXYN_toNat 0x9 x y 0x0; have := x.isLt; have := y.isLt
  intro f hf
  simp only [fixedBits, List.mem_cons, List.not_mem_nil, or_false] at hf
  rcases hf with rfl | rfl <;> (simp only [encode, h]; simp; omega)

theorem ldI (nnn : Addr12) : Statement (.ldI nnn) := by
  have h := wordNNN_toNat 0xA nnn; have := nnn.isLt
  intro f hf
  simp only [fixedBits, List.mem_cons, List.not_mem_nil, or_false] at hf
  subst hf
  simp only [encode, h]; simp; omega

theorem jpV0 (nnn : Addr12) : Statement (.jpV0 nnn) := by
  have h := wordNNN_toNat 0xB nnn; have := nnn.isLt
  intro f hf
  simp only [fixedBits, List.mem_cons, List.not_mem_nil, or_false] at hf
  subst hf
  simp only [encode, h]; simp; omega

theorem rnd (x : Reg) (nn : Byte) : Statement (.rnd x nn) := by
  have h := wordXNN_toNat 0xC x nn; have := x.isLt; have := nn.isLt
  intro f hf
  simp only [fixedBits, List.mem_cons, List.not_mem_nil, or_false] at hf
  subst hf
  simp only [encode, h]; simp; omega

theorem drw (x y : Reg) (n : Nibble) : Statement (.drw x y n) := by
  have h := wordXYN_toNat 0xD x y n; have := x.isLt; have := y.isLt; have := n.isLt
  intro f hf
  simp only [fixedBits, List.mem_cons, List.not_mem_nil, or_false] at hf
  subst hf
  simp only [encode, h]; simp; omega

theorem skp (x : Reg) : Statement (.skp x) := by
  have h := wordXNN_toNat 0xE x 0x9E; have := x.isLt
  intro f hf
  simp only [fixedBits, List.mem_cons, List.not_mem_nil, or_false] at hf
  rcases hf with rfl | rfl <;> (simp only [encode, h]; simp; omega)

theorem sknp (x : Reg) : Statement (.sknp x) := by
  have h := wordXNN_toNat 0xE x 0xA1; have := x.isLt
  intro f hf
  simp only [fixedBits, List.mem_cons, List.not_mem_nil, or_false] at hf
  rcases hf with rfl | rfl <;> (simp only [encode, h]; simp; omega)

theorem ldVxDt (x : Reg) : Statement (.ldVxDt x) := by
  have h := wordXNN_toNat 0xF x 0x07; have := x.isLt
  intro f hf
  simp only [fixedBits, List.mem_cons, List.not_mem_nil, or_false] at hf
  rcases hf with rfl | rfl <;> (simp only [encode, h]; simp; omega)

theorem ldVxK (x : Reg) : Statement (.ldVxK x) := by
  have h := wordXNN_toNat 0xF x 0x0A; have := x.isLt
  intro f hf
  simp only [fixedBits, List.mem_cons, List.not_mem_nil, or_false] at hf
  rcases hf with rfl | rfl <;> (simp only [encode, h]; simp; omega)

theorem ldDtVx (x : Reg) : Statement (.ldDtVx x) := by
  have h := wordXNN_toNat 0xF x 0x15; have := x.isLt
  intro f hf
  simp only [fixedBits, List.mem_cons, List.not_mem_nil, or_false] at hf
  rcases hf with rfl | rfl <;> (simp only [encode, h]; simp; omega)

theorem ldStVx (x : Reg) : Statement (.ldStVx x) := by
  have h := wordXNN_toNat 0xF x 0x18; have := x.isLt
  intro f hf
  simp only [fixedBits, List.mem_cons, List.not_mem_nil, or_false] at hf
  rcases hf with rfl | rfl <;> (simp only [encode, h]; simp; omega)

theorem addI (x : Reg) : Statement (.addI x) := by
  have h := wordXNN_toNat 0xF x 0x1E; have := x.isLt
  intro f hf
  simp only [fixedBits, List.mem_cons, List.not_mem_nil, or_false] at hf
  rcases hf with rfl | rfl <;> (simp only [encode, h]; simp; omega)

theorem ldF (x : Reg) : Statement (.ldF x) := by
  have h := wordXNN_toNat 0xF x 0x29; have := x.isLt
  intro f hf
  simp only [fixedBits, List.mem_cons, List.not_mem_nil, or_false] at hf
  rcases hf with rfl | rfl <;> (simp only [encode, h]; simp; omega)

theorem ldB (x : Reg) : Statement (.ldB x) := by
  have h := wordXNN_toNat 0xF x 0x33; have := x.isLt
  intro f hf
  simp only [fixedBits, List.mem_cons, List.not_mem_nil, or_false] at hf
  rcases hf with rfl | rfl <;> (simp only [encode, h]; simp; omega)

theorem ldStore (x : Reg) : Statement (.ldStore x) := by
  have h := wordXNN_toNat 0xF x 0x55; have := x.isLt
  intro f hf
  simp only [fixedBits, List.mem_cons, List.not_mem_nil, or_false] at hf
  rcases hf with rfl | rfl <;> (simp only [encode, h]; simp; omega)

theorem ldLoad (x : Reg) : Statement (.ldLoad x) := by
  have h := wordXNN_toNat 0xF x 0x65; have := x.isLt
  intro f hf
  simp only [fixedBits, List.mem_cons, List.not_mem_nil, or_false] at hf
  rcases hf with rfl | rfl <;> (simp only [encode, h]; simp; omega)

end Sys2Proof.Laws.OpcodeRow
end

