-- ==== Sys2Proof/Tests/Slice0.lean ====
section
/-! SUPPORT. The package's own tests: ill-formed terms, decoded words, one-step vectors of 95_test_vectors.md (its ids in
the comments), and for each obligation with hypotheses a concrete input that meets them. -/

namespace Sys2Proof.Tests

open Sys2Proof Sys2Proof.Machine

/-! ### Ill-formed terms -/

theorem test_wf_refuses_sys_cls : (Instr.sys 0x0E0).wf = false := by decide

theorem test_wf_refuses_sys_ret : (Instr.sys 0x0EE).wf = false := by decide

theorem test_recognised_refuses_sys_under_unknown :
    (Instr.sys 0xABC).recognised .unknown = false ∧ (Instr.sys 0x0E0).recognised .ignore = false := by decide

theorem test_params_wf_refuses_font_past_0x200 : ¬ ({ Params.default with fontBase := 0x1B1 } : Params).wf := by decide

/-! ### Decoding: one word per constructor, written bit by bit from the patterns of R73 -/

theorem test_decode_families_0_to_4 :
    decode .ignore 0b0000_1010_1011_1100 = .ok (.sys 0xABC) ∧
    decode .ignore 0b0000_0000_1110_0000 = .ok .cls ∧
    decode .ignore 0b0000_0000_1110_1110 = .ok .ret ∧
    decode .ignore 0b0001_0010_0011_0100 = .ok (.jp 0x234) ∧
    decode .ignore 0b0010_1111_1110_1101 = .ok (.call 0xFED) ∧
    decode .ignore 0b0011_0011_0001_0010 = .ok (.seImm 3 0x12) ∧
    decode .ignore 0b0100_1110_1000_0001 = .ok (.sneImm 14 0x81) := by decide

theorem test_decode_families_5_to_7_and_9_to_D :
    decode .ignore 0b0101_0001_0010_0000 = .ok (.seReg 1 2) ∧
    decode .ignore 0b0110_1010_0100_0010 = .ok (.ldImm 10 0x42) ∧
    decode .ignore 0b0111_0010_1111_1111 = .ok (.addImm 2 0xFF) ∧
    decode .ignore 0b1001_1000_0100_0000 = .ok (.sneReg 8 4) ∧
    decode .ignore 0b1010_0010_1111_0000 = .ok (.ldI 0x2F0) ∧
    decode .ignore 0b1011_1000_0000_0001 = .ok (.jpV0 0x801) ∧
    decode .ignore 0b1100_0011_0000_1111 = .ok (.rnd 3 0x0F) ∧
    decode .ignore 0b1101_0001_0010_0101 = .ok (.drw 1 2 5) := by decide

theorem test_decode_family_8 :
    decode .ignore 0b1000_0001_0010_0000 = .ok (.ldReg 1 2) ∧
    decode .ignore 0b1000_0001_0010_0001 = .ok (.orReg 1 2) ∧
    decode .ignore 0b1000_0001_0010_0010 = .ok (.andReg 1 2) ∧
    decode .ignore 0b1000_0001_0010_0011 = .ok (.xorReg 1 2) ∧
    decode .ignore 0b1000_0001_0010_0100 = .ok (.addReg 1 2) ∧
    decode .ignore 0b1000_0001_0010_0101 = .ok (.sub 1 2) ∧
    decode .ignore 0b1000_0001_0010_0110 = .ok (.shr 1 2) ∧
    decode .ignore 0b1000_0001_0010_0111 = .ok (.subn 1 2) ∧
    decode .ignore 0b1000_0001_0010_1110 = .ok (.shl 1 2) := by decide

theorem test_decode_families_E_and_F :
    decode .ignore 0b1110_0001_1001_1110 = .ok (.skp 1) ∧
    decode .ignore 0b1110_0001_1010_0001 = .ok (.sknp 1) ∧
    decode .ignore 0b1111_0101_0000_0111 = .ok (.ldVxDt 5) ∧
    decode .ignore 0b1111_0011_0000_1010 = .ok (.ldVxK 3) ∧
    decode .ignore 0b1111_0101_0001_0101 = .ok (.ldDtVx 5) ∧
    decode .ignore 0b1111_0101_0001_1000 = .ok (.ldStVx 5) ∧
    decode .ignore 0b1111_0000_0001_1110 = .ok (.addI 0) ∧
    decode .ignore 0b1111_0111_0010_1001 = .ok (.ldF 7) ∧
    decode .ignore 0b1111_0010_0011_0011 = .ok (.ldB 2) ∧
    decode .ignore 0b1111_1111_0101_0101 = .ok (.ldStore 15) ∧
    decode .ignore 0b1111_0010_0110_0101 = .ok (.ldLoad 2) := by decide

/-- CY10, with the digits 1 and 2 for X and Y. -/
theorem test_decode_unknown_words :
    decode .ignore 0x8128 = .error (.unknownOpcode 0x8128) ∧ decode .ignore 0x812F = .error (.unknownOpcode 0x812F) ∧
    decode .ignore 0x9121 = .error (.unknownOpcode 0x9121) ∧ decode .ignore 0xE09F = .error (.unknownOpcode 0xE09F) ∧
    decode .ignore 0xF000 = .error (.unknownOpcode 0xF000) ∧ decode .ignore 0xF0FF = .error (.unknownOpcode 0xF0FF) ∧
    decode .ignore 0x5001 = .error (.unknownOpcode 0x5001) ∧
    decode .ignore 0x0000 = .ok (.sys 0) ∧ decode .ignore 0x0FFF = .ok (.sys 0xFFF) := by decide

theorem test_decode_bytes :
    decodeBytes .ignore [0x81, 0x25, 0x77] = .ok (.sub 1 2, [0x77]) ∧ decodeBytes .ignore [0x81] = .error .truncated ∧
    decodeBytes .ignore [] = .error .truncated := by decide

theorem test_decode_table_word :
    decodeTableWord 16 0xD125 = some (.drw 1 2 5) ∧ decodeTableWord 16 0x8128 = none := by decide

/-! ### One step on a small state -/

/-- The reset machine with the word `w` at 0x200. -/
def start (w : Nat) : State := State.reset.withFetchWord 16 w

/-- The machine after one step. -/
abbrev after (s : State) : State := s.apply .step

/-- The flags with only key `k` pressed. -/
def oneKey (k : Key) : Vector Bool 16 := (Vector.replicate 16 false).set k true

/-- The reset machine with other parameters and the word `w` at 0x200. -/
def startWith (p : Params) (w : Nat) : State := (State.initial p).withFetchWord 16 w

/-- CY1. -/
theorem test_step_jp : (after (start 0x1234)).pc = 0x234 ∧ (after (start 0x1234)).status = some .ok := by decide

/-- CY3. -/
theorem test_step_fetch_fault :
    (after (State.reset.setPc 0x1000)).fault = some ⟨.addressingError, 0x1000, none, some 0x1000⟩ ∧
    (after (State.reset.setPc 0x1000)).pc = 0x1000 := by decide

/-- CY4. -/
theorem test_step_fetch_fault_second_byte :
    (after (State.reset.setPc 0xFFF)).fault = some ⟨.addressingError, 0xFFF, none, some 0x1000⟩ := by decide

/-- CY5. -/
theorem test_step_fetch_wraps :
    (after (((State.initial { Params.default with addrPolicy := .wrap }).setPc 0xFFF).setMem
      [(0, 0x34), (0xFFF, 0x12)])).pc = 0x234 := by decide

/-- CY6 and CY9. -/
theorem test_step_unknown_fatal :
    (after (start 0x5121)).fault = some ⟨.unknownOpcode, 0x200, some 0x5121, none⟩ ∧
    (after (start 0x5121)).pc = 0x200 ∧
    (after (startWith { Params.default with sysPolicy := .unknown } 0x0123)).fault =
      some ⟨.unknownOpcode, 0x200, some 0x0123, none⟩ := by decide

/-- CY7. -/
theorem test_step_unknown_ignored :
    (after (startWith { Params.default with unknownPolicy := .ignore } 0x5121)).status =
      some (.ignored 0x5121 0x200) ∧
    (after (startWith { Params.default with unknownPolicy := .ignore } 0x5121)).pc = 0x202 := by decide

/-- CF18. -/
theorem test_step_sys : after (start 0x0ABC) = ((start 0x0ABC).setPc 0x202).setStatus .ok := by decide

/-- CF1. -/
theorem test_step_call : (after (start 0x2300)).stack = [0x202] ∧ (after (start 0x2300)).pc = 0x300 := by decide

/-- CF2, with the instruction at 0x200. -/
theorem test_step_ret :
    (after ((start 0x00EE).setStack [0x202, 0x404])).pc = 0x202 ∧
    (after ((start 0x00EE).setStack [0x202, 0x404])).stack = [0x404] := by decide

/-- CF3. -/
theorem test_step_ret_underflow :
    (after (start 0x00EE)).fault = some ⟨.stackUnderflow, 0x200, some 0x00EE, none⟩ ∧
    (after (start 0x00EE)).pc = 0x200 := by decide

/-- CF4. -/
theorem test_step_call_overflow :
    (after ((start 0x2300).setStack (List.replicate 16 0x202))).fault =
      some ⟨.stackOverflow, 0x200, some 0x2300, none⟩ := by decide

/-- CF6 and CF7. -/
theorem test_step_seImm :
    (after ((start 0x3312).setV 3 0x12)).pc = 0x204 ∧ (after ((start 0x3312).setV 3 0x13)).pc = 0x202 := by decide

/-- CF8 and CF9. -/
theorem test_step_sneImm :
    (after ((start 0x4312).setV 3 0x13)).pc = 0x204 ∧ (after ((start 0x4312).setV 3 0x12)).pc = 0x202 := by decide

/-- CF10, and CF12's operands. -/
theorem test_step_seReg :
    (after (((start 0x5120).setV 1 7).setV 2 7)).pc = 0x204 ∧
    (after (((start 0x5120).setV 1 7).setV 2 8)).pc = 0x202 := by decide

/-- CF12 and CF13. -/
theorem test_step_sneReg :
    (after (((start 0x9120).setV 1 7).setV 2 8)).pc = 0x204 ∧ (after ((start 0x9110).setV 1 7)).pc = 0x202 := by decide

/-- CF15. -/
theorem test_step_jpV0 : (after ((start 0xBFFF).setV 0 0xFF)).pc = 0x10FE := by decide

/-- CF16: a skip does not look at the word it skips. -/
theorem test_step_skip_to_the_end :
    (after ((State.reset.setPc 0xFFC).setMem [(0xFFC, 0x30)])).pc = 0x1000 ∧
    (after ((State.reset.setPc 0xFFC).setMem [(0xFFC, 0x30)])).status = some .ok := by decide

/-- AL35. -/
theorem test_step_ldImm : (after (start 0x6A42)).getV 10 = 0x42 := by decide

/-- AL36. -/
theorem test_step_addImm :
    (after (((start 0x7203).setV 2 0xFE).setV 15 7)).getV 2 = 1 ∧
    (after (((start 0x7203).setV 2 0xFE).setV 15 7)).getV 15 = 7 := by decide

/-- AL26. -/
theorem test_step_ldReg : (after ((start 0x8120).setV 2 0x33)).getV 1 = 0x33 := by decide

/-- AL22. -/
theorem test_step_or :
    (after ((((start 0x8121).setV 1 0xF0).setV 2 0x0C).setV 15 7)).getV 1 = 0xFC ∧
    (after ((((start 0x8121).setV 1 0xF0).setV 2 0x0C).setV 15 7)).getV 15 = 7 := by decide

/-- AL23. -/
theorem test_step_and :
    (after (((start 0x8122).setV 1 0xF0).setV 2 0x3C)).getV 1 = 0x30 := by decide

/-- AL24. -/
theorem test_step_xor :
    (after (((start 0x8123).setV 1 0xF0).setV 2 0x3C)).getV 1 = 0xCC := by decide

/-- AL2, and S12's overwritten VF. -/
theorem test_step_addReg :
    (after (((start 0x8124).setV 1 0xFF).setV 2 1)).getV 1 = 0 ∧
    (after (((start 0x8124).setV 1 0xFF).setV 2 1)).getV 15 = 1 ∧
    (after ((((start 0x8124).setV 1 1).setV 2 1).setV 15 0x77)).getV 15 = 0 := by decide

/-- AL28 and AL34. -/
theorem test_step_addReg_with_vf :
    (after (((start 0x8F14).setV 15 0x10).setV 1 0x20)).getV 15 = 0 ∧
    (after (((start 0x81F4).setV 1 0x10).setV 15 0xF5)).getV 1 = 5 := by decide

/-- AL9 and AL6. -/
theorem test_step_sub :
    (after (((start 0x8125).setV 1 1).setV 2 0xFF)).getV 1 = 2 ∧
    (after (((start 0x8125).setV 1 1).setV 2 0xFF)).getV 15 = 0 ∧
    (after (((start 0x8125).setV 1 5).setV 2 5)).getV 15 = 1 := by decide

/-- AL13 and AL10. -/
theorem test_step_subn :
    (after (((start 0x8127).setV 1 0xFF).setV 2 1)).getV 1 = 2 ∧
    (after (((start 0x8127).setV 1 0xFF).setV 2 1)).getV 15 = 0 ∧
    (after (((start 0x8127).setV 1 5).setV 2 5)).getV 15 = 1 := by decide

/-- AL15. -/
theorem test_step_shr :
    (after ((start 0x8126).setV 1 0xFF)).getV 1 = 0x7F ∧ (after ((start 0x8126).setV 1 0xFF)).getV 15 = 1 := by decide

/-- AL20. -/
theorem test_step_shr_vy :
    (after ((startWith { Params.default with shiftSource := .vy } 0x8126).setV 2 5)).getV 1 = 2 ∧
    (after ((startWith { Params.default with shiftSource := .vy } 0x8126).setV 2 5)).getV 15 = 1 := by decide

/-- AL19. -/
theorem test_step_shl :
    (after ((start 0x812E).setV 1 0x7F)).getV 1 = 0xFE ∧ (after ((start 0x812E).setV 1 0x7F)).getV 15 = 0 := by decide

/-- AL21. -/
theorem test_step_shl_vy :
    (after ((startWith { Params.default with shiftSource := .vy } 0x812E).setV 2 0x81)).getV 1 = 2 ∧
    (after ((startWith { Params.default with shiftSource := .vy } 0x812E).setV 2 0x81)).getV 15 = 1 := by decide

/-- AL40: the mask 0 gives 0 whatever the draw is. -/
theorem test_step_rnd : (after (start 0xC300)).getV 3 = 0 := by
  show Config.randomByte 0 &&& 0#8 = 0
  exact BitVec.and_zero

/-- MI1. -/
theorem test_step_ldI : (after (start 0xA2F0)).i = 0x2F0 := by decide

/-- MI2 and MI3. -/
theorem test_step_addI :
    (after (((start 0xF01E).setI 0x0FFE).setV 0 5)).i = 0x1003 ∧
    (after (((start 0xF01E).setI 0xFFFF).setV 0 1)).i = 0 := by decide

/-- MI4 and MI5. -/
theorem test_step_ldF :
    (after ((start 0xF729).setV 7 0x0A)).i = 0x082 ∧ (after ((start 0xF729).setV 7 0x1A)).i = 0x082 := by decide

/-- MI7 and MI13. -/
theorem test_step_ldB :
    (after (((start 0xF233).setI 0x300).setV 2 0x9C)).mem =
      [(0x200, 0xF2), (0x201, 0x33), (0x300, 1), (0x301, 5), (0x302, 6)] ∧
    after (((start 0xF233).setI 0xFFE).setV 2 0x7B) =
      ((((start 0xF233).setI 0xFFE).setV 2 0x7B).setFault
        ⟨.addressingError, 0x200, some 0xF233, some 0x1000⟩).setStatus
          (.faulted ⟨.addressingError, 0x200, some 0xF233, some 0x1000⟩) := by decide

/-- MI14. -/
theorem test_step_ldStore :
    (after (((((start 0xF255).setI 0x400).setV 0 0x11).setV 1 0x22).setV 2 0x33)).mem =
      [(0x200, 0xF2), (0x201, 0x55), (0x400, 0x11), (0x401, 0x22), (0x402, 0x33)] ∧
    (after ((start 0xF255).setI 0x400)).i = 0x400 := by decide

/-- MI15's index. -/
theorem test_step_ldStore_increments :
    (after ((startWith { Params.default with ldregIncrementsI := true } 0xF255).setI 0x400)).i = 0x403 := by decide

/-- MI16, on the glyph of 0 (R37). -/
theorem test_step_ldLoad :
    (after ((start 0xF165).setI 0x050)).v.toList = [0xF0, 0x90, 0, 0, 0, 0, 0, 0, 0, 0, 0, 0, 0, 0, 0, 0] := by decide

/-- DS1. -/
theorem test_step_cls :
    (after ((start 0x00E0).setFb (setPixel FrameBuffer.blank 63 31 true))).fb = FrameBuffer.blank := by decide

/-- The bits of a row of the buffer, column 0 first, up to column `n`. -/
def rowBits (s : State) (y n : Nat) : List Bool := (List.range n).map fun x => pixel s.fb x y

/-- DS2: the glyph 0 at the origin; its rows 0 and 1, and VF. -/
theorem test_step_drw :
    rowBits (after ((start 0xD015).setI 0x050)) 0 6 = [true, true, true, true, false, false] ∧
    rowBits (after ((start 0xD015).setI 0x050)) 1 6 = [true, false, false, true, false, false] ∧
    (after ((start 0xD015).setI 0x050)).getV 15 = 0 := by decide

/-- DS5: the sprite byte C0 at the last pixel; the byte at 0x250 is 0xC0. -/
theorem test_step_drw_wraps :
    let s := ((((start 0xD011).setI 0x250).setV 0 63).setV 1 31).setMem [(0x200, 0xD0), (0x201, 0x11), (0x250, 0xC0)]
    pixel (after s).fb 63 31 = true ∧ pixel (after s).fb 0 31 = true ∧ (after s).getV 15 = 0 := by decide

/-- IN1, IN2 and IN5. -/
theorem test_step_skp :
    (after (((start 0xE19E).setV 1 0x0A).setKeys (oneKey 10))).pc = 0x204 ∧
    (after ((start 0xE19E).setV 1 0x0A)).pc = 0x202 ∧
    (after (((start 0xE19E).setV 1 0x1A).setKeys (oneKey 10))).pc = 0x202 := by decide

/-- IN3, IN4 and IN6. -/
theorem test_step_sknp :
    (after ((start 0xE1A1).setV 1 0x0A)).pc = 0x204 ∧
    (after (((start 0xE1A1).setV 1 0x0A).setKeys (oneKey 10))).pc = 0x202 ∧
    (after ((start 0xE1A1).setV 1 0x1A)).pc = 0x204 := by decide

/-- IN8. -/
theorem test_step_ldVxK :
    (after ((start 0xF30A).setKeys ((oneKey 4).set 9 true))).getV 3 = 4 ∧
    (after ((start 0xF30A).setKeys ((oneKey 4).set 9 true))).pc = 0x202 := by decide

/-- IN9, and IN11's resume. -/
theorem test_step_ldVxK_waits :
    after (start 0xF30A) = ((start 0xF30A).setMode (.awaitingKey 3)).setStatus .blocked ∧
    (after ((after (start 0xF30A)).setKey 12 true)).getV 3 = 12 ∧
    (after ((after (start 0xF30A)).setKey 12 true)).pc = 0x202 := by decide

/-- TM1. -/
theorem test_step_ldVxDt : (after ((start 0xF507).setDt 0x3C)).getV 5 = 0x3C := by decide

/-- TM2. -/
theorem test_step_ldDtVx : (after ((start 0xF515).setV 5 0x3C)).dt = 0x3C := by decide

/-- TM3. -/
theorem test_step_ldStVx :
    (after ((start 0xF518).setV 5 2)).st = 2 ∧ (after ((start 0xF518).setV 5 2)).soundActive = true := by decide

/-- TM4 and TM5. -/
theorem test_tick :
    ((State.reset.setDt 1).tick.dt, (State.reset.setDt 1).tick.st) = (0, 0) ∧
    ((State.reset.setSt 5).tick.dt, (State.reset.setSt 5).tick.st) = (0, 4) := by decide

/-- TM3's answer, RS3's failure and IN9's status, each as the host gets it. -/
theorem test_host_answers :
    (after ((start 0xF518).setV 5 2)).answer .soundActive = .sound true ∧
    State.reset.answer .snapshot = .view FrameBuffer.blank ∧
    (start 0xF30A).answer .step = .status (some .blocked) ∧
    State.reset.answer (.reset (List.replicate 3585 0)) = .failed .programTooLarge :=
  ⟨rfl, rfl, rfl, by rw [State.answer, resetRom_too_large]; simp only [List.length_replicate]; decide⟩

/-- S8 and P6: under the endless schedule of steps and snapshots, a jump to itself keeps PC. -/
theorem test_endless_schedule :
    (Schedule.infinite fun n => if n % 2 = 0 then .step else .snapshot).answerAt (start 0x1200) 3 =
      some (.view FrameBuffer.blank) ∧
    ((Schedule.infinite fun n => if n % 2 = 0 then .step else .snapshot).stateAt (start 0x1200) 4).pc = 0x200 :=
  ⟨rfl, rfl⟩

/-- The opcode table's word runs as the first instruction after reset. -/
theorem test_withFetchWord :
    step (State.reset.withFetchWord 16 0x6A42) =
      exec (.ldImm 10 0x42) ((State.reset.withFetchWord 16 0x6A42).setPc 0x202) := by rfl

/-! ### Witnesses: for each obligation with hypotheses, inputs that meet them, clause by clause, at the ends of their
ranges -/

/-- The reset machine under `ADDR_POLICY = Wrap`. -/
def wrapping : State := State.initial { Params.default with addrPolicy := .wrap }

theorem witness_DecodeOfEncodeAgrees :
    (Instr.sys 0xFFF).recognised .ignore = true ∧ (Instr.drw 15 15 15).recognised .unknown = true := by decide

theorem witness_EncodeOfDecodeAgrees :
    decode .ignore 0x0000 = .ok (.sys 0) ∧ decode .unknown 0xFF65 = .ok (.ldLoad 15) := by decide

theorem witness_StepRunsDecodedInstruction :
    (start 0x1234).fault = none ∧ (start 0x1234).mode = .running ∧ fetch (start 0x1234) (start 0x1234).pc = .ok 0x1234 ∧
    decode (start 0x1234).params.sysPolicy 0x1234 = .ok (.jp 0x234) :=
  ⟨rfl, rfl, rfl, rfl⟩

theorem witness_PlacedInstructionRuns :
    Memory.wf (State.reset.setPc 0xFFE).params (State.reset.setPc 0xFFE).mem ∧
    (State.reset.setPc 0xFFE).fault = none ∧ (State.reset.setPc 0xFFE).mode = .running ∧
    (State.reset.setPc 0xFFE).pc.toNat + 1 < 4096 ∧
    (Instr.drw 15 15 15).recognised (State.reset.setPc 0xFFE).params.sysPolicy = true := by decide

theorem witness_FetchReadsBigEndianWord :
    ((0xFFE : Word).toNat + 1 < 4096 ∧ State.reset.params.addrPolicy = .fault) ∧
    (State.reset.params.addrPolicy = .fault ∧ (0xFFF : Word).toNat = 4095) ∧
    (State.reset.params.addrPolicy = .fault ∧ 4096 ≤ (0x1000 : Word).toNat) ∧
    wrapping.params.addrPolicy = .wrap := by decide

theorem witness_ByteWriteIsBoundsChecked :
    (Memory.wf State.reset.params State.reset.mem ∧ State.reset.inReach 4095 1) ∧
    (Memory.wf wrapping.params wrapping.mem ∧ wrapping.inReach 4096 1) ∧
    (State.reset.params.addrPolicy = .fault ∧ (4096 : Nat) ≤ 4096) := by decide

theorem witness_FetchFaultIsRecorded :
    (State.reset.setPc 0xFFF).fault = none ∧ (State.reset.setPc 0xFFF).mode = .running ∧
    fetch (State.reset.setPc 0xFFF) (State.reset.setPc 0xFFF).pc = .error 4096 :=
  ⟨rfl, rfl, rfl⟩

/-- The reset machine under `UNKNOWN_POLICY = Ignore`, at the unknown word 0x5121. -/
def ignoring : State := startWith { Params.default with unknownPolicy := .ignore } 0x5121

theorem witness_UnknownOpcodeFollowsPolicy :
    ((start 0x5121).fault = none ∧ (start 0x5121).mode = .running ∧
      fetch (start 0x5121) (start 0x5121).pc = .ok 0x5121 ∧
      decode (start 0x5121).params.sysPolicy 0x5121 = .error (.unknownOpcode 0x5121) ∧
      (start 0x5121).params.unknownPolicy = .fatal) ∧
    (ignoring.fault = none ∧ ignoring.mode = .running ∧ fetch ignoring ignoring.pc = .ok 0x5121 ∧
      decode ignoring.params.sysPolicy 0x5121 = .error (.unknownOpcode 0x5121) ∧
      ignoring.params.unknownPolicy = .ignore) :=
  ⟨⟨rfl, rfl, rfl, rfl, rfl⟩, rfl, rfl, rfl, rfl, rfl⟩

/-- A faulting fetch and a faulting instruction. -/
theorem witness_FaultCommitsNothing :
    ((State.reset.setPc 0xFFF).fault = none ∧
      step (State.reset.setPc 0xFFF) = .next (after (State.reset.setPc 0xFFF)) ∧
      (after (State.reset.setPc 0xFFF)).fault = some ⟨.addressingError, 0xFFF, none, some 4096⟩ ∧
      fetch (State.reset.setPc 0xFFF) (State.reset.setPc 0xFFF).pc = .error 4096) ∧
    ((start 0x00EE).fault = none ∧ step (start 0x00EE) = .next (after (start 0x00EE)) ∧
      (after (start 0x00EE)).fault = some ⟨.stackUnderflow, 0x200, some 0x00EE, none⟩ ∧
      fetch (start 0x00EE) (start 0x00EE).pc = .ok 0x00EE) :=
  ⟨⟨rfl, rfl, rfl, rfl⟩, rfl, rfl, rfl, rfl⟩

/-- The reset machine as an instruction at 0x200 finds it. -/
def body : State := State.reset.setPc 0x202

/-- `body` with 16 return addresses. -/
def fullStack : State := body.setStack (List.replicate 16 0x202)

/-- One fault of each kind that an instruction raises; the transfer is the shortest that leaves memory. -/
theorem witness_FaultsOnlyWhereTheTableSays :
    (body.fault = none ∧ ∃ t, exec .ret body = .next t ∧ t.fault = some ⟨.stackUnderflow, 0x200, some 0x00EE, none⟩) ∧
    (fullStack.fault = none ∧
      ∃ t, exec (.call 0x300) fullStack = .next t ∧ t.fault = some ⟨.stackOverflow, 0x200, some 0x2300, none⟩) ∧
    ((body.setI 0x1000).fault = none ∧
      ∃ t, exec (.ldLoad 0) (body.setI 0x1000) = .next t ∧
        t.fault = some ⟨.addressingError, 0x200, some 0xF065, some 0x1000⟩) :=
  ⟨⟨rfl, _, rfl, rfl⟩, ⟨rfl, _, rfl, rfl⟩, rfl, _, rfl, rfl⟩

theorem witness_StepReturnsUnlessFaulted : State.reset.fault = none := rfl

theorem witness_FaultedMachineMakesNoProgress :
    (after (start 0x00EE)).fault = some ⟨.stackUnderflow, 0x200, some 0x00EE, none⟩ ∧
    ∀ rom, HostOp.reset rom ∉ [HostOp.step, .tick, .setKey 3 true] :=
  ⟨rfl, by simp⟩

theorem witness_ResetMeetsTheInvariants : ({ Params.default with fontBase := 0x1B0 } : Params).wf := by decide

/-- The invariant holds with a full stack and the last byte of memory written, and the step answers next. -/
theorem witness_StepKeepsWellFormedness :
    ((start 0x00EE).setStack (List.replicate 16 0x202)).wf ∧
    ((start 0xFF55).setMem [(0x200, 0xFF), (0x201, 0x55), (0xFFF, 1)]).wf ∧
    (∃ t, step ((start 0x00EE).setStack (List.replicate 16 0x202)) = .next t) :=
  ⟨by decide, by decide, _, rfl⟩

theorem witness_StepKeepsStatusCoherent :
    (State.reset.coherent ∧ ∃ t, step State.reset = .next t) ∧
    ((after (start 0xF30A)).coherent ∧ ∃ t, step (after (start 0xF30A)) = .next t) :=
  ⟨⟨⟨trivial, nofun⟩, _, rfl⟩, ⟨trivial, rfl⟩, _, rfl⟩

/-- The last word of memory, BFFF, with V0 = 0xFF: the step reaches 0x10FE. -/
def lastWord : State := ((State.reset.setPc 0xFFE).setV 0 0xFF).setMem [(0xFFE, 0xBF), (0xFFF, 0xFF)]

theorem witness_StepKeepsPcBounded :
    lastWord.pcBounded ∧ lastWord.params.addrPolicy = .fault ∧
    ∃ t, step lastWord = .next t ∧ t.pc = 0x10FE :=
  ⟨fun _ => ⟨by decide, nofun, by decide⟩, rfl, _, rfl, rfl⟩

theorem witness_SchedulesKeepTheInvariants :
    Params.default.wf ∧
    Reachable Params.default
      (runSchedule [.reset [0xF3, 0x0A], .step, .setKey 4 true, .snapshot, .step] (State.initial Params.default)) ∧
    Reachable Params.default ((State.initial Params.default).apply .step |>.apply .tick) :=
  ⟨by decide, ⟨.finite [.reset [0xF3, 0x0A], .step, .setKey 4 true, .snapshot, .step], 5, rfl⟩,
    .infinite fun n => if n % 2 = 0 then .step else .tick, 2, rfl⟩

/-- The waiting machine meets the three invariants. -/
theorem witness_HostOperationsKeepTheInvariants :
    (after (start 0xF30A)).wf ∧ (after (start 0xF30A)).coherent ∧ (after (start 0xF30A)).pcBounded :=
  ⟨by decide, ⟨trivial, rfl⟩, fun _ => ⟨by decide, nofun, fun _ => by decide⟩⟩

theorem witness_StepNeverWritesKeysOrParameters : ∃ t, step (start 0xF30A) = .next t := ⟨_, rfl⟩

/-- Every part is changed by some instruction. -/
theorem witness_OnlyNamedInstructionsWriteEachPart :
    (∃ t, exec (.ldI 0x2F0) body = .next t ∧ t.i ≠ body.i) ∧
    (∃ t, exec (.call 0x300) body = .next t ∧ t.stack ≠ body.stack) ∧
    (∃ t, exec (.ldDtVx 5) (body.setV 5 1) = .next t ∧ t.dt ≠ body.dt) ∧
    (∃ t, exec (.ldStVx 5) (body.setV 5 1) = .next t ∧ t.st ≠ body.st) ∧
    (∃ t, exec .cls (body.setFb (setPixel FrameBuffer.blank 0 0 true)) = .next t ∧
      t.fb ≠ setPixel FrameBuffer.blank 0 0 true) ∧
    (∃ t, exec (.ldB 2) ((body.setI 0x300).setV 2 1) = .next t ∧ t.mem ≠ body.mem) ∧
    (∃ t, exec (.ldVxK 3) body = .next t ∧ t.mode ≠ body.mode) ∧
    (∃ t, exec (.rnd 3 0) body = .next t ∧ t.draws ≠ body.draws) :=
  ⟨⟨_, rfl, by decide⟩, ⟨_, rfl, by decide⟩, ⟨_, rfl, by decide⟩, ⟨_, rfl, by decide⟩, ⟨_, rfl, by decide⟩,
    ⟨_, rfl, by decide⟩, ⟨_, rfl, by decide⟩, _, rfl, by decide⟩

/-- I moves after a store under LDREG_INCREMENTS_I. -/
theorem witness_OnlyNamedInstructionsWriteEachPart_increment :
    ∃ t, exec (.ldStore 2) (State.initial { Params.default with ldregIncrementsI := true }) = .next t ∧ t.i ≠ 0 :=
  ⟨_, rfl, by decide⟩

theorem witness_OnlyNamedRegistersChange :
    (∃ t, exec (.addReg 1 2) body = .next t) ∧ ¬ mayWriteV (.addReg 1 2) 2 ∧ ¬ mayWriteV (.ldLoad 14) 15 :=
  ⟨⟨_, rfl⟩, by simp [mayWriteV, vF], by simp [mayWriteV]⟩

theorem witness_CallPushesOrOverflows :
    (body.setStack (List.replicate 15 0x202)).stack.length < 16 ∧ 16 ≤ fullStack.stack.length := by decide

theorem witness_ReturnPopsOrUnderflows : fullStack.stack = 0x202 :: List.replicate 15 0x202 ∧ body.stack = [] :=
  ⟨rfl, rfl⟩

theorem witness_ReturnUndoesCall :
    (body.setStack (List.replicate 15 0x202)).stack.length < 16 ∧
    ∃ t, exec (.call 0x300) (body.setStack (List.replicate 15 0x202)) = .next t ∧
      (State.reset.setStack t.stack).stack = t.stack :=
  ⟨by decide, _, rfl, rfl⟩

theorem witness_flag_statements : (14 : Reg) ≠ 15 := by decide

theorem witness_ShiftsSetShiftedOutBit :
    ((body.params.shiftSource = .vx → (1 : Reg) = 1) ∧ (body.params.shiftSource = .vy → (1 : Reg) = 2) ∧
      body.params.shiftSource = .vx) ∧
    (∀ s : State, s.params = { Params.default with shiftSource := .vy } →
      (s.params.shiftSource = .vx → (2 : Reg) = 1) ∧ (s.params.shiftSource = .vy → (2 : Reg) = 2)) :=
  ⟨by decide, fun s h => by rw [h]; decide⟩

/-- The highest FONT_BASE. -/
theorem witness_AddIndexAndFontAddress : (State.initial { Params.default with fontBase := 0x1B0 }).params.wf := by decide

theorem witness_BcdDigitsReconstruct :
    (Memory.wf body.params body.mem ∧ (body.setI 0xFFD).inReach (baseAddr (body.setI 0xFFD)) 3 ∧
      resolveAddr body.params (baseAddr (body.setI 0xFFD) + 2) = .ok 0xFFF) ∧
    ((wrapping.setI 0xFFF).inReach (baseAddr (wrapping.setI 0xFFF)) 3 ∧
      resolveAddr wrapping.params (baseAddr (wrapping.setI 0xFFF)) = .ok 0xFFF ∧
      resolveAddr wrapping.params (baseAddr (wrapping.setI 0xFFF) + 1) = .ok 0 ∧
      resolveAddr wrapping.params (baseAddr (wrapping.setI 0xFFF) + 2) = .ok 1) :=
  ⟨⟨by decide, by decide, rfl⟩, by decide, rfl, rfl, rfl⟩

/-- The hypotheses of the store's and the load's statements, under each value of LDREG_INCREMENTS_I. -/
theorem witness_BulkStoreWritesV0ToVx :
    Memory.wf body.params body.mem ∧ (body.setI 0xFF0).inReach (baseAddr (body.setI 0xFF0)) ((15 : Reg).val + 1) ∧
    (15 : Reg) ≤ 15 ∧ resolveAddr body.params (baseAddr (body.setI 0xFF0) + 15) = .ok 0xFFF ∧
    body.params.ldregIncrementsI = false :=
  ⟨by decide, by decide, by decide, rfl, rfl⟩

theorem witness_BulkLoadReadsV0ToVx :
    (wrapping.setI 0xFFFF).inReach (baseAddr (wrapping.setI 0xFFFF)) ((1 : Reg).val + 1) ∧
    resolveAddr wrapping.params (baseAddr (wrapping.setI 0xFFFF) + 1) = .ok 0 ∧
    (State.initial { Params.default with ldregIncrementsI := true }).params.ldregIncrementsI = true :=
  ⟨by decide, rfl, rfl⟩

/-- The first transfer that leaves memory, of each length kind. -/
theorem witness_TransferPastMemoryFaults :
    body.params.addrPolicy = .fault ∧
    (transferLength (.ldStore 15) ≠ 0 ∧ 4096 < baseAddr (body.setI 0xFF1) + transferLength (.ldStore 15)) ∧
    (transferLength (.drw 0 0 1) ≠ 0 ∧ 4096 < baseAddr (body.setI 0x1000) + transferLength (.drw 0 0 1)) ∧
    (transferLength (.ldB 2) ≠ 0 ∧ 4096 < baseAddr (body.setI 0xFFE) + transferLength (.ldB 2)) := by decide

theorem witness_LoadRestoresStoredRegisters :
    Memory.wf body.params body.mem ∧ (body.setI 0x400).inReach (baseAddr (body.setI 0x400)) ((2 : Reg).val + 1) ∧
    ∃ t, exec (.ldStore 2) (body.setI 0x400) = .next t ∧ t.mem = t.mem ∧ t.params = body.params ∧ t.i = 0x400 :=
  ⟨by decide, by decide, _, rfl, rfl, rfl, rfl⟩

theorem witness_StoredBytesAreFetched :
    Memory.wf body.params body.mem ∧ (body.setI 0xFFE).inReach (baseAddr (body.setI 0xFFE)) ((1 : Reg).val + 1) ∧
    (∃ t, exec (.ldStore 1) (body.setI 0xFFE) = .next t) ∧ (0 : Reg) < 1 ∧
    (0xFFE : Word).toNat = baseAddr (body.setI 0xFFE) + (0 : Reg).val :=
  ⟨by decide, by decide, ⟨_, rfl⟩, by decide, rfl⟩

/-- The last byte of memory, and N = 0 past it; a pixel the glyph 0 at the origin covers, and one it does not. -/
theorem witness_DrawTogglesCoveredPixels :
    (body.setI 0xFFF).inReach (baseAddr (body.setI 0xFFF)) (1 : Nibble).toNat ∧
    ((body.setI 0xFFFF).inReach (baseAddr (body.setI 0xFFFF)) (0 : Nibble).toNat ∨ (0 : Nibble) = 0) ∧
    covers (body.setI 0x50) 0 1 5 0 0 ∧ ¬ covers (body.setI 0x50) 0 1 5 63 31 := by
  refine ⟨by decide, by decide, ⟨0, by decide, 0, by decide, by decide⟩, ?_⟩
  unfold covers
  decide

/-- The collision clauses of the draw's statements: the covered pixel (0, 0) on, and off. -/
theorem witness_CollisionMeansPixelTurnedOff :
    ((body.setI 0x50).inReach (baseAddr (body.setI 0x50)) (5 : Nibble).toNat ∨ (5 : Nibble) = 0) ∧
    pixel (setPixel FrameBuffer.blank 0 0 true) 0 0 = true ∧ pixel body.fb 0 0 = false := by decide

theorem witness_DrawTwiceRestoresDisplay :
    (14 : Reg) ≠ 15 ∧ (0 : Reg) ≠ 15 ∧
    ((body.setI 0xFF1).inReach (baseAddr (body.setI 0xFF1)) (15 : Nibble).toNat ∨ (15 : Nibble) = 0) := by
  decide

theorem witness_KeySkips :
    ((∀ h : ((body.setV 1 15).getV 1).toNat < 16,
        true = ((body.setV 1 15).setKeys (oneKey 15)).keys[((body.setV 1 15).getV 1).toNat]) ∧
      (16 ≤ ((body.setV 1 15).getV 1).toNat → true = false)) ∧
    ((∀ h : ((body.setV 1 16).getV 1).toNat < 16, false = (body.setV 1 16).keys[((body.setV 1 16).getV 1).toNat]) ∧
      16 ≤ ((body.setV 1 16).getV 1).toNat) := by decide

theorem witness_KeyWaitTakesKeyOrBlocks :
    ((∃ k : Key, (body.setKeys (oneKey 15)).keys[k] = true) ∧ body.params.keySelect = .lowest) ∧
    (∀ k : Key, body.keys[k] = false) := by decide

/-- The machine waiting for a key for V3. -/
def waiting : State := State.reset.setMode (.awaitingKey 3)

theorem witness_WaitingStepResumesOnKey :
    (waiting.fault = none ∧ waiting.mode = .awaitingKey 3 ∧ ∀ k : Key, waiting.keys[k] = false) ∧
    ((waiting.setKey 15 true).mode = .awaitingKey 3 ∧ ∃ k : Key, (waiting.setKey 15 true).keys[k] = true) := by decide

theorem witness_KeyWaitHoldsUntilKeyPressed :
    (start 0xF30A).fault = none ∧ (start 0xF30A).mode = .running ∧
    fetch (start 0xF30A) (start 0xF30A).pc = .ok 0xF30A ∧
    decode (start 0xF30A).params.sysPolicy 0xF30A = .ok (.ldVxK 3) ∧ (∀ j : Key, (start 0xF30A).keys[j] = false) :=
  ⟨rfl, rfl, rfl, rfl, by decide⟩

/-- The highest pressed key is one of the choices, so not only the reference choice meets the hypotheses. -/
def highestKey (keys : Vector Bool 16) : Option Key := (pressedKeys keys).getLast?

theorem witness_TableExpressesEveryKeySelect :
    (∀ keys, highestKey keys = none ↔ ∀ k : Key, keys[k] = false) ∧
    (∀ (keys : Vector Bool 16) (j : Key), highestKey keys = some j → keys[j] = true) := by
  have hk : ∀ (keys : Vector Bool 16) (k : Key), keyPressed keys k.val = keys[k] :=
    fun keys k => keyPressed_of_lt keys k.val k.isLt
  refine ⟨fun keys => ?_, fun keys j h => ?_⟩
  · simp only [highestKey, List.getLast?_eq_none_iff, pressedKeys_eq_nil, hk]
  · exact (hk keys j).symm.trans ((mem_pressedKeys keys j).1 (List.mem_of_getLast? h))

theorem witness_SetKeySetsOneFlag :
    16 ≤ 16 ∧ (State.reset.setKey 15 true).keys = oneKey 15 ∧ State.reset.setKey 16 true = State.reset := by decide

theorem witness_ResetVectorAndMode : ∃ t, (after (start 0x00EE)).resetRom [0x12, 0x00] = .ok t := ⟨_, rfl⟩

/-- RS2 and RS3: the longest ROM that loads and the shortest that does not. -/
theorem witness_ResetLoadsRomOrFails :
    State.reset.params.wf ∧ (List.replicate 3584 (0 : Byte)).length ≤ 3584 ∧
    3584 < (List.replicate 3585 (0 : Byte)).length := by
  refine ⟨by decide, ?_, ?_⟩ <;> simp only [List.length_replicate] <;> decide

theorem witness_BulkHostLoadWritesOrFails :
    Memory.wf State.reset.params State.reset.mem ∧ 0xFFE + [(1 : Byte), 2].length ≤ 4096 ∧
    4096 < 0xFFF + [(1 : Byte), 2].length := by decide

end Sys2Proof.Tests
end

section
/-! PROOF. The ends of a step: what the body of an instruction can do to the mode and the fault status, the states a
step can leave, and from them O13 (a step returns) and O17 (the returned status agrees with the state). -/

namespace Sys2Proof.Machine

/-! ### What a body that ends normally leaves alone -/

/-- `u` has the mode, the fault status, the key flags and the parameters of `s`. -/
structure SameControl (s u : State) : Prop where
  mode : u.mode = s.mode
  fault : u.fault = s.fault
  keys : u.keys = s.keys
  params : u.params = s.params

theorem sameControl_skipIf (c : Bool) (s : State) : SameControl s (skipIf c s) := by
  rw [skipIf_eq]
  exact ⟨rfl, rfl, rfl, rfl⟩

theorem sameControl_setVsFrom (k : Nat) (bs : List Byte) (s : State) : SameControl s (setVsFrom k bs s) :=
  ⟨setVsFrom_mode s k bs, setVsFrom_fault s k bs, setVsFrom_keys s k bs, setVsFrom_params s k bs⟩

theorem sameControl_storeBytes {a : Nat} {bs : List Byte} {s u : State} (h : storeBytes a bs s = .ok u) :
    SameControl s u := by
  rw [(storeBytes_ok bs a s u h).1]
  exact ⟨rfl, rfl, rfl, rfl⟩

theorem sameControl_advanceI (x : Reg) {s u : State} (h : SameControl s u) : SameControl s (advanceI x u) := by
  rw [advanceI_eq]
  exact ⟨h.mode, h.fault, h.keys, h.params⟩

/-! ### How the body of an instruction ends -/

/-- The body of every instruction ends normally without touching mode and fault status, or is FX0A with no key
pressed, or raises a fault as itself (R105, R106, R213). No arm is refused. -/
theorem exec_cases (i : Instr) (s : State) :
    (∃ u, exec i s = finish u ∧ SameControl s u) ∨
    (∃ x, i = .ldVxK x ∧ anyPressed s = none ∧
      exec i s = block ((s.setPc (instrPc s.pc)).setMode (.awaitingKey x))) ∨
    (∃ k e, exec i s = raise k i e s) := by
  cases i with
  | ret =>
    obtain ⟨-, h⟩ | ⟨a, l, -, h⟩ := execRet_cases s
    · exact .inr (.inr ⟨_, _, h⟩)
    · exact .inl ⟨_, h, ⟨rfl, rfl, rfl, rfl⟩⟩
  | call nnn =>
    obtain ⟨-, h⟩ | ⟨-, h⟩ := execCall_cases s nnn
    · exact .inr (.inr ⟨_, _, h⟩)
    · exact .inl ⟨_, h, ⟨rfl, rfl, rfl, rfl⟩⟩
  | drw x y n =>
    obtain ⟨rows, -, h⟩ | ⟨e, -, h⟩ := execDrw_cases s x y n
    · exact .inl ⟨_, h, ⟨rfl, rfl, rfl, rfl⟩⟩
    · exact .inr (.inr ⟨_, _, h⟩)
  | ldVxK x =>
    obtain ⟨j, -, h⟩ | ⟨hk, h⟩ := execLdVxK_cases s x
    · exact .inl ⟨_, h, ⟨rfl, rfl, rfl, rfl⟩⟩
    · exact .inr (.inl ⟨x, rfl, hk, h⟩)
  | ldB x =>
    obtain ⟨u, hu, h⟩ | ⟨e, -, h⟩ := execLdB_cases s x
    · exact .inl ⟨_, h, sameControl_storeBytes hu⟩
    · exact .inr (.inr ⟨_, _, h⟩)
  | ldStore x =>
    obtain ⟨u, hu, h⟩ | ⟨e, -, h⟩ := execLdStore_cases s x
    · exact .inl ⟨_, h, sameControl_advanceI x (sameControl_storeBytes hu)⟩
    · exact .inr (.inr ⟨_, _, h⟩)
  | ldLoad x =>
    obtain ⟨bs, -, h⟩ | ⟨e, -, h⟩ := execLdLoad_cases s x
    · exact .inl ⟨_, h, sameControl_advanceI x (sameControl_setVsFrom 0 bs s)⟩
    · exact .inr (.inr ⟨_, _, h⟩)
  | seImm | sneImm | seReg | sneReg | skp | sknp => exact .inl ⟨_, rfl, sameControl_skipIf _ s⟩
  | _ => exact .inl ⟨_, rfl, ⟨rfl, rfl, rfl, rfl⟩⟩

/-! ### The states a step leaves -/

/-- The state `t` that one step of the unfaulted machine `s` leaves, by how the step ends (R109). -/
inductive StepLeaves (s : State) : State → Prop where
  /-- An instruction ran and ended normally (R105); what it wrote outside the control fields is left open. -/
  | finished (hm : s.mode = .running) (u : State) (hu : SameControl s u) : StepLeaves s (u.setStatus .ok)
  /-- FX0A found no key and begins to wait; PC still holds its address (R213, R214). -/
  | startsWait (hm : s.mode = .running) (hk : anyPressed s = none) (x : Reg) :
      StepLeaves s ((s.setMode (.awaitingKey x)).setStatus .blocked)
  /-- The wait goes on (R215). -/
  | waits (x : Reg) (hm : s.mode = .awaitingKey x) (hk : anyPressed s = none) : StepLeaves s (s.setStatus .blocked)
  /-- The wait ends with the key `j` (R215). -/
  | resumes (x : Reg) (hm : s.mode = .awaitingKey x) (j : Key) (hk : anyPressed s = some j) :
      StepLeaves s ((((s.setV x (keyCode j)).setPc (nextPc s.pc)).setMode .running).countDraw.setStatus .ok)
  /-- An unknown opcode was skipped under `UNKNOWN_POLICY = Ignore` (R104). -/
  | ignored (hm : s.mode = .running) (hp : s.params.unknownPolicy = .ignore) (op : Word) :
      StepLeaves s ((s.setPc (nextPc s.pc)).setStatus (.ignored op s.pc))
  /-- The fetch, the decode or the body faulted: only the record and the status change (R106). -/
  | faulted (hm : s.mode = .running) (r : FaultRecord) : StepLeaves s ((s.setFault r).setStatus (.faulted r))

theorem keyResume_leaves (s : State) (x : Reg) (hm : s.mode = .awaitingKey x) :
    ∃ t, keyResume x s = .next t ∧ StepLeaves s t := by
  obtain ⟨j, hk, h⟩ | ⟨hk, h⟩ := keyResume_cases s x
  · exact ⟨_, h, .resumes x hm j hk⟩
  · exact ⟨_, h, .waits x hm hk⟩

theorem unknownOpcode_leaves (s : State) (op : Word) (hm : s.mode = .running) :
    ∃ t, unknownOpcode op s = .next t ∧ StepLeaves s t := by
  obtain ⟨-, h⟩ | ⟨hp, h⟩ := unknownOpcode_cases s op
  · exact ⟨_, h, .faulted hm _⟩
  · exact ⟨_, h, .ignored hm hp op⟩

/-- FX0A undoes the fetch's advance before it waits (R213). -/
theorem setPc_instrPc_after_fetch (s : State) :
    (s.setPc (nextPc s.pc)).setPc (instrPc (s.setPc (nextPc s.pc)).pc) = s := by
  simp [State.setPc]

theorem exec_after_fetch_leaves (s : State) (i : Instr) (hm : s.mode = .running) :
    ∃ t, exec i (s.setPc (nextPc s.pc)) = .next t ∧ StepLeaves s t := by
  obtain ⟨u, h, hu⟩ | ⟨x, -, hk, h⟩ | ⟨k, e, h⟩ := exec_cases i (s.setPc (nextPc s.pc))
  · exact ⟨_, h, .finished hm u ⟨hu.mode, hu.fault, hu.keys, hu.params⟩⟩
  · rw [setPc_instrPc_after_fetch] at h
    exact ⟨_, h, .startsWait hm hk x⟩
  · rw [raise_after_fetch] at h
    exact ⟨_, h, .faulted hm _⟩

theorem stepRunning_leaves (s : State) (hm : s.mode = .running) :
    ∃ t, stepRunning s = .next t ∧ StepLeaves s t := by
  cases hfetch : fetch s s.pc with
  | error e => exact ⟨_, stepRunning_fetch_error s e hfetch, .faulted hm _⟩
  | ok op =>
    cases hdec : decode s.params.sysPolicy op with
    | error j =>
      rw [stepRunning_unknown s op j hfetch hdec]
      exact unknownOpcode_leaves s op hm
    | ok i =>
      rw [stepRunning_exec s op i hfetch hdec]
      exact exec_after_fetch_leaves s i hm

/-- A step of a machine with no fault answers a next state, and it is one of those of `StepLeaves`. -/
theorem step_leaves (s : State) (hf : s.fault = none) : ∃ t, step s = .next t ∧ StepLeaves s t := by
  cases hm : s.mode with
  | running =>
    rw [step_running s hf hm]
    exact stepRunning_leaves s hm
  | awaitingKey x =>
    rw [step_awaiting s x hf hm]
    exact keyResume_leaves s x hm

/-- The inversion of a step that answers a next state: the machine held no fault. -/
theorem stepLeaves_of_step_next {s t : State} (h : step s = .next t) : s.fault = none ∧ StepLeaves s t := by
  cases hf : s.fault with
  | some r =>
    rw [step_faulted s r hf] at h
    cases h
  | none =>
    obtain ⟨t', ht', hl⟩ := step_leaves s hf
    cases ht'.symm.trans h
    exact ⟨rfl, hl⟩

/-! ### The status that a step leaves -/

theorem StepLeaves.exists_status {s t : State} (h : StepLeaves s t) : ∃ r, t.status = some r := by
  cases h <;> exact ⟨_, rfl⟩

theorem coherent_setStatus_ok {u : State} (hm : u.mode = .running) (hf : u.fault = none) :
    (u.setStatus .ok).coherent := by
  simp [State.coherent, hm, hf]

theorem coherent_setStatus_blocked {u : State} {x : Reg} (hm : u.mode = .awaitingKey x) (hf : u.fault = none) :
    (u.setStatus .blocked).coherent := by
  simp [State.coherent, hm, hf]

/-- Whatever the status before, the status a step leaves agrees with the mode and the fault it leaves. -/
theorem StepLeaves.coherent {s t : State} (h : StepLeaves s t) (hf : s.fault = none) : t.coherent := by
  cases h with
  | finished hm u hu => exact coherent_setStatus_ok (hu.mode.trans hm) (hu.fault.trans hf)
  | startsWait => exact coherent_setStatus_blocked rfl hf
  | waits x hm => exact coherent_setStatus_blocked hm hf
  | resumes => exact coherent_setStatus_ok rfl hf
  | ignored hm => simp [State.coherent, hm, hf]
  | faulted hm r => simp [State.coherent, hm]

/-- Settles O13: without a fault a step leaves one of the states of `StepLeaves`, each of which holds a status. -/
theorem stepReturnsUnlessFaulted : Obligations.StepReturnsUnlessFaulted := by
  unfold Obligations.StepReturnsUnlessFaulted
  intro s hf
  obtain ⟨t, ht, hl⟩ := step_leaves s hf
  obtain ⟨r, hr⟩ := hl.exists_status
  exact ⟨t, r, ht, hr⟩

/-- Settles O17, by the ways a step ends; the agreement before the step is not needed, since no step reads the
status. -/
theorem stepKeepsStatusCoherent : Obligations.StepKeepsStatusCoherent := by
  unfold Obligations.StepKeepsStatusCoherent
  intro s t _ hstep
  obtain ⟨hf, hl⟩ := stepLeaves_of_step_next hstep
  exact hl.coherent hf

end Sys2Proof.Machine
end

section
/-! PROOF. Who writes what: the states that the body of an instruction can leave, by the parts that it writes, and from
them the frames over all instructions, O21 and O22. -/

namespace Sys2Proof.Machine

/-! ### The states that the body of an instruction leaves -/

/-- Every V register that the instruction may not write holds in `u` what it held in `s` (R21, R22). -/
def KeepsUnnamedV (i : Instr) (s u : State) : Prop := ∀ r : Reg, ¬ mayWriteV i r → u.getV r = s.getV r

/-- The state `u` that the body of the instruction leaves from `s`, up to the status, by the parts that it writes. `s`
is the state after the fetch, and what is written is left open where no rule on who writes what speaks of it. -/
inductive BodyLeaves (s : State) : Instr → State → Prop where
  /-- V registers at most: the named ones (R21). -/
  | registers (i : Instr) (w : Vector Byte 16) (hw : KeepsUnnamedV i s { s with v := w }) :
      BodyLeaves s i { s with v := w }
  /-- PC: a skip, or a jump to NNN or NNN + V0 (R120, R123, R129). -/
  | branches (i : Instr) (a : Word) (ha : a = s.pc ∨ a = nextPc s.pc ∨ a.toNat ≤ 0x10FE) :
      BodyLeaves s i (s.setPc a)
  /-- The stack and PC: RET (R122). -/
  | returns (a : Word) (l : List Word) (hs : s.stack = a :: l) : BodyLeaves s .ret ((s.setStack l).setPc a)
  /-- The stack and PC: CALL (R124). -/
  | calls (nnn : Addr12) (hs : s.stack.length < stackDepth) :
      BodyLeaves s (.call nnn) ((s.setStack (s.pc :: s.stack)).setPc (Addr12.zext nnn))
  /-- The display: CLS (R192). -/
  | clears : BodyLeaves s .cls (s.setFb FrameBuffer.blank)
  /-- The display and VF: DXYN (R193). -/
  | draws (x y : Reg) (n : Nibble) (f : FrameBuffer) (b : Byte) : BodyLeaves s (.drw x y n) ((s.setFb f).setV vF b)
  /-- I: ANNN, FX1E, FX29 (R24). -/
  | setsI (i : Instr) (a : Word) (hi : (∃ nnn, i = .ldI nnn) ∨ ∃ x, i = .addI x ∨ i = .ldF x) :
      BodyLeaves s i (s.setI a)
  /-- The delay timer: FX15 (R218). -/
  | setsDt (x : Reg) (b : Byte) : BodyLeaves s (.ldDtVx x) (s.setDt b)
  /-- The sound timer: FX18 (R219). -/
  | setsSt (x : Reg) (b : Byte) : BodyLeaves s (.ldStVx x) (s.setSt b)
  /-- One register, with a free value drawn: CXNN, and FX0A with a key pressed (R152, R213). -/
  | drawsFree (i : Instr) (x : Reg) (b : Byte) (hi : i = .ldVxK x ∨ ∃ nn, i = .rnd x nn) :
      BodyLeaves s i (s.setV x b).countDraw
  /-- Memory, and I where it advances: FX33, FX55 (R173, R174). -/
  | stores (i : Instr) (x : Reg) (m : Memory) (a : Word) (hm : Memory.wf s.params s.mem → Memory.wf s.params m)
      (hi : (i = .ldB x ∧ a = s.i) ∨ (i = .ldStore x ∧ (a ≠ s.i → s.params.ldregIncrementsI = true))) :
      BodyLeaves s i ((s.setMem m).setI a)
  /-- V registers, and I where it advances: FX65 (R175). -/
  | loads (x : Reg) (w : Vector Byte 16) (a : Word) (hw : KeepsUnnamedV (.ldLoad x) s { s with v := w })
      (ha : a ≠ s.i → s.params.ldregIncrementsI = true) : BodyLeaves s (.ldLoad x) (State.setI { s with v := w } a)
  /-- PC and the mode: FX0A with no key pressed (R213). -/
  | waits (x : Reg) : BodyLeaves s (.ldVxK x) ((s.setPc (instrPc s.pc)).setMode (.awaitingKey x))
  /-- PC and the fault status: a fault raised in the body (R106). -/
  | raises (i : Instr) (r : FaultRecord) : BodyLeaves s i ((s.setPc (instrPc s.pc)).setFault r)

/-! ### Every body leaves one of them -/

theorem setV_leaves {i : Instr} {s : State} {x : Reg} (b : Byte) (hx : mayWriteV i x) : BodyLeaves s i (s.setV x b) :=
  .registers i _ fun r hr => getV_setV_ne s x r b fun h => hr (h ▸ hx)

theorem writeResultAndFlag_leaves {i : Instr} {s : State} {x : Reg} (result flag : Byte) (hx : mayWriteV i x)
    (hF : mayWriteV i vF) : BodyLeaves s i (writeResultAndFlag x result flag s) :=
  .registers i _ fun r hr =>
    (getV_setV_ne _ vF r flag fun h => hr (h ▸ hF)).trans (getV_setV_ne s x r result fun h => hr (h ▸ hx))

theorem skipIf_leaves (i : Instr) (s : State) (c : Bool) : BodyLeaves s i (skipIf c s) := by
  rw [skipIf_eq]
  cases c
  · exact .branches i _ (.inl rfl)
  · exact .branches i _ (.inr (.inl rfl))

theorem addr12_zext_le (nnn : Addr12) : (Addr12.zext nnn).toNat ≤ 0xFFF := by
  have := nnn.isLt
  simp only [Addr12.zext, BitVec.toNat_setWidth]
  omega

theorem addr12_add_byte_le (nnn : Addr12) (b : Byte) : (Addr12.zext nnn + Byte.zext b).toNat ≤ 0x10FE := by
  have := nnn.isLt
  have := b.isLt
  simp only [Addr12.zext, Byte.zext, BitVec.toNat_add, BitVec.toNat_setWidth]
  omega

theorem setVsFrom_eq (bs : List Byte) : ∀ (k : Nat) (s : State),
    setVsFrom k bs s = { s with v := (setVsFrom k bs s).v } := by
  induction bs with
  | nil => intro k s; rfl
  | cons b bs ih => intro k s; exact ih (k + 1) (s.setV (Fin.ofNat 16 k) b)

/-- FX65 reads no byte for a register above X (R175). -/
theorem keepsUnnamedV_setVsFrom {x : Reg} {bs : List Byte} (s : State) (h : bs.length = x.val + 1) :
    KeepsUnnamedV (.ldLoad x) s (setVsFrom 0 bs s) := by
  intro r (hr : ¬ r ≤ x)
  rw [getV_setVsFrom bs 0 s r (by omega), dif_neg (by rw [Fin.le_def] at hr; omega)]

/-- I advances under `LDREG_INCREMENTS_I` only (R174, R175). -/
theorem advanceI_writes (x : Reg) (s : State) :
    ∃ a, advanceI x s = s.setI a ∧ (a ≠ s.i → s.params.ldregIncrementsI = true) := by
  refine ⟨_, advanceI_eq s x, fun h => ?_⟩
  by_contra hc
  simp [hc] at h

/-- The body of every instruction leaves one of the states of `BodyLeaves`, with a status. -/
theorem exec_leaves (i : Instr) (s : State) : ∃ u r, exec i s = .next (u.setStatus r) ∧ BodyLeaves s i u := by
  cases i with
  | sys => exact ⟨_, _, rfl, .registers _ s.v fun _ _ => rfl⟩
  | cls => exact ⟨_, _, rfl, .clears⟩
  | ret =>
    obtain ⟨-, h⟩ | ⟨a, l, hs, h⟩ := execRet_cases s
    · exact ⟨_, _, h, .raises _ _⟩
    · exact ⟨_, _, h, .returns a l hs⟩
  | jp nnn => exact ⟨_, _, rfl, .branches _ _ (.inr (.inr ((addr12_zext_le nnn).trans (by decide))))⟩
  | call nnn =>
    obtain ⟨-, h⟩ | ⟨hs, h⟩ := execCall_cases s nnn
    · exact ⟨_, _, h, .raises _ _⟩
    · exact ⟨_, _, h, .calls nnn hs⟩
  | jpV0 nnn => exact ⟨_, _, rfl, .branches _ _ (.inr (.inr (addr12_add_byte_le nnn _)))⟩
  | seImm | sneImm | seReg | sneReg | skp | sknp => exact ⟨_, _, rfl, skipIf_leaves _ s _⟩
  | ldImm | addImm | ldReg | orReg | andReg | xorReg | ldVxDt => exact ⟨_, _, rfl, setV_leaves _ rfl⟩
  | addReg | sub | shr | subn | shl => exact ⟨_, _, rfl, writeResultAndFlag_leaves _ _ (.inl rfl) (.inr rfl)⟩
  | ldI nnn => exact ⟨_, _, rfl, .setsI _ _ (.inl ⟨nnn, rfl⟩)⟩
  | addI x => exact ⟨_, _, rfl, .setsI _ _ (.inr ⟨x, .inl rfl⟩)⟩
  | ldF x => exact ⟨_, _, rfl, .setsI _ _ (.inr ⟨x, .inr rfl⟩)⟩
  | rnd x nn => exact ⟨_, _, rfl, .drawsFree _ x _ (.inr ⟨nn, rfl⟩)⟩
  | ldDtVx x => exact ⟨_, _, rfl, .setsDt x _⟩
  | ldStVx x => exact ⟨_, _, rfl, .setsSt x _⟩
  | drw x y n =>
    obtain ⟨rows, -, h⟩ | ⟨e, -, h⟩ := execDrw_cases s x y n
    · exact ⟨_, _, h, .draws x y n _ _⟩
    · exact ⟨_, _, h, .raises _ _⟩
  | ldVxK x =>
    obtain ⟨j, -, h⟩ | ⟨-, h⟩ := execLdVxK_cases s x
    · exact ⟨_, _, h, .drawsFree _ x _ (.inl rfl)⟩
    · exact ⟨_, _, h, .waits x⟩
  | ldB x =>
    obtain ⟨u, hu, h⟩ | ⟨e, -, h⟩ := execLdB_cases s x
    · obtain ⟨hmem, hwf⟩ := storeBytes_ok _ _ _ _ hu
      rw [hmem] at h
      exact ⟨_, _, h, .stores _ x _ _ hwf (.inl ⟨rfl, rfl⟩)⟩
    · exact ⟨_, _, h, .raises _ _⟩
  | ldStore x =>
    obtain ⟨u, hu, h⟩ | ⟨e, -, h⟩ := execLdStore_cases s x
    · obtain ⟨hmem, hwf⟩ := storeBytes_ok _ _ _ _ hu
      obtain ⟨a, hadv, ha⟩ := advanceI_writes x (s.setMem u.mem)
      rw [hmem, hadv] at h
      exact ⟨_, _, h, .stores _ x _ _ hwf (.inr ⟨rfl, ha⟩)⟩
    · exact ⟨_, _, h, .raises _ _⟩
  | ldLoad x =>
    obtain ⟨bs, hbs, h⟩ | ⟨e, -, h⟩ := execLdLoad_cases s x
    · have hkeep := keepsUnnamedV_setVsFrom s (loadBytes_length s _ _ bs hbs)
      rw [setVsFrom_eq] at h hkeep
      obtain ⟨a, hadv, ha⟩ := advanceI_writes x { s with v := (setVsFrom 0 bs s).v }
      rw [hadv] at h
      exact ⟨_, _, h, .loads x _ a hkeep ha⟩
    · exact ⟨_, _, h, .raises _ _⟩

/-- The inversion of a body that answers a next state. -/
theorem bodyLeaves_of_exec_next {i : Instr} {s t : State} (h : exec i s = .next t) :
    ∃ u r, t = u.setStatus r ∧ BodyLeaves s i u := by
  obtain ⟨u, r, hu, hl⟩ := exec_leaves i s
  cases hu.symm.trans h
  exact ⟨u, r, rfl, hl⟩

/-! ### Who writes what -/

section
variable {s u : State} {i : Instr} (h : BodyLeaves s i u)
include h

theorem BodyLeaves.i_writer (hne : u.i ≠ s.i) :
    (∃ nnn, i = .ldI nnn) ∨ (∃ x, i = .addI x ∨ i = .ldF x) ∨
      (s.params.ldregIncrementsI = true ∧ ∃ x, i = .ldStore x ∨ i = .ldLoad x) := by
  cases h with
  | setsI i a hi => exact hi.imp_right .inl
  | stores i x m a hm hi =>
    obtain ⟨-, ha⟩ | ⟨hi, ha⟩ := hi
    · exact absurd ha hne
    · exact .inr (.inr ⟨ha hne, x, .inl hi⟩)
  | loads x w a hw ha => exact .inr (.inr ⟨ha hne, x, .inr rfl⟩)
  | _ => exact absurd rfl hne

theorem BodyLeaves.stack_writer (hne : u.stack ≠ s.stack) : i = .ret ∨ ∃ nnn, i = .call nnn := by
  cases h with
  | returns => exact .inl rfl
  | calls nnn => exact .inr ⟨nnn, rfl⟩
  | _ => exact absurd rfl hne

theorem BodyLeaves.dt_writer (hne : u.dt ≠ s.dt) : ∃ x, i = .ldDtVx x := by
  cases h with
  | setsDt x => exact ⟨x, rfl⟩
  | _ => exact absurd rfl hne

theorem BodyLeaves.st_writer (hne : u.st ≠ s.st) : ∃ x, i = .ldStVx x := by
  cases h with
  | setsSt x => exact ⟨x, rfl⟩
  | _ => exact absurd rfl hne

theorem BodyLeaves.fb_writer (hne : u.fb ≠ s.fb) : i = .cls ∨ ∃ x y n, i = .drw x y n := by
  cases h with
  | clears => exact .inl rfl
  | draws x y n => exact .inr ⟨x, y, n, rfl⟩
  | _ => exact absurd rfl hne

theorem BodyLeaves.mem_writer (hne : u.mem ≠ s.mem) : ∃ x, i = .ldB x ∨ i = .ldStore x := by
  cases h with
  | stores i x m a hm hi => exact ⟨x, hi.imp And.left And.left⟩
  | _ => exact absurd rfl hne

theorem BodyLeaves.mode_writer (hne : u.mode ≠ s.mode) : ∃ x, i = .ldVxK x := by
  cases h with
  | waits x => exact ⟨x, rfl⟩
  | _ => exact absurd rfl hne

theorem BodyLeaves.draws_writer (hne : u.draws ≠ s.draws) : ∃ x, i = .ldVxK x ∨ ∃ nn, i = .rnd x nn := by
  cases h with
  | drawsFree i x b hi => exact ⟨x, hi⟩
  | _ => exact absurd rfl hne

theorem BodyLeaves.keepsUnnamedV : KeepsUnnamedV i s u := by
  cases h with
  | registers i w hw => exact hw
  | loads x w a hw => exact hw
  | draws x y n f b => exact fun r hr => getV_setV_ne _ vF r b hr
  | drawsFree i x b hi =>
    obtain rfl | ⟨nn, rfl⟩ := hi <;> exact fun r hr => getV_setV_ne s x r b hr
  | _ => exact fun _ _ => rfl

end

/-- Settles O21: one lemma per part says which bodies write it. -/
theorem onlyNamedInstructionsWriteEachPart : Obligations.OnlyNamedInstructionsWriteEachPart := by
  unfold Obligations.OnlyNamedInstructionsWriteEachPart
  intro i s t hexec
  obtain ⟨u, r, rfl, h⟩ := bodyLeaves_of_exec_next hexec
  exact ⟨h.i_writer, h.stack_writer, h.dt_writer, h.st_writer, h.fb_writer, h.mem_writer, h.mode_writer,
    h.draws_writer⟩

/-- Settles O22, by the parts that the body of an instruction writes. -/
theorem onlyNamedRegistersChange : Obligations.OnlyNamedRegistersChange := by
  unfold Obligations.OnlyNamedRegistersChange
  intro i s t r hexec
  obtain ⟨u, status, rfl, h⟩ := bodyLeaves_of_exec_next hexec
  exact h.keepsUnnamedV r

end Sys2Proof.Machine
end

section
/-! PROOF. What a step keeps: a body keeps memory canonical, the stack within 16 entries and PC bounded, and so does a
step that runs no body; from these O16 and O18, and O20 from the ways a step ends. -/

namespace Sys2Proof.Machine

/-! ### What a body keeps of the invariants -/

section
variable {s u : State} {i : Instr} (h : BodyLeaves s i u)
include h

theorem BodyLeaves.params_eq : u.params = s.params := by
  cases h <;> rfl

theorem BodyLeaves.mem_wf (hw : Memory.wf s.params s.mem) : Memory.wf s.params u.mem := by
  cases h with
  | stores i x m a hm => exact hm hw
  | _ => exact hw

theorem BodyLeaves.stack_length_le (hs : s.stack.length ≤ stackDepth) : u.stack.length ≤ stackDepth := by
  cases h with
  | returns a l hl => rw [hl] at hs; exact Nat.le_of_succ_le hs
  | calls nnn hlt => exact hlt
  | _ => exact hs

theorem BodyLeaves.wf (hs : s.wf) : u.wf := by
  obtain ⟨hp, hm, hl⟩ := hs
  rw [State.wf, h.params_eq]
  exact ⟨hp, h.mem_wf hm, h.stack_length_le hl⟩

/-- Only a CALL adds a return address: the PC after the fetch (R124). -/
theorem BodyLeaves.mem_stack {a : Word} (ha : a ∈ u.stack) : a = s.pc ∨ a ∈ s.stack := by
  cases h with
  | returns b l hl => exact .inr (hl ▸ List.mem_cons_of_mem b ha)
  | calls nnn => exact List.mem_cons.1 ha
  | _ => exact .inr ha

/-- Where PC can be after a body. -/
theorem BodyLeaves.pc_cases :
    u.pc = s.pc ∨ u.pc = nextPc s.pc ∨ u.pc.toNat ≤ 0x10FE ∨ u.pc ∈ s.stack ∨ u.pc = instrPc s.pc := by
  cases h with
  | branches i a ha => exact ha.imp_right (Or.imp_right .inl)
  | returns a l hl => exact .inr (.inr (.inr (.inl (hl ▸ List.mem_cons_self))))
  | calls nnn => exact .inr (.inr (.inl ((addr12_zext_le nnn).trans (by decide))))
  | waits | raises => exact .inr (.inr (.inr (.inr rfl)))
  | _ => exact .inl rfl

/-- A body that leaves the mode Running starts a wait, at its own address (R213). -/
theorem BodyLeaves.pc_of_wait (hs : s.mode = .running) (hu : u.mode ≠ .running) : u.pc = instrPc s.pc := by
  cases h with
  | waits => rfl
  | _ => exact absurd hs hu

end

/-- After an instruction at or below 0xFFE, the highest address that a fetch accepts under `Fault`, PC is at most
0x1000 (R54, R102). -/
theorem nextPc_le {a : Word} (ha : a.toNat ≤ 0xFFE) : (nextPc a).toNat ≤ 0x1000 := by
  rw [nextPc_toNat]
  omega

/-- A body run after a fetch keeps the bound on PC and the return addresses. -/
theorem BodyLeaves.pcBounded {s u : State} {i : Instr} (h : BodyLeaves (s.setPc (nextPc s.pc)) i u)
    (hm : s.mode = .running) (hfetch : s.params.addrPolicy = .fault → s.pc.toNat ≤ 0xFFE) (hb : s.pcBounded) :
    u.pcBounded := by
  intro hp
  rw [h.params_eq] at hp
  obtain ⟨-, hstack, -⟩ := hb hp
  have hpc := hfetch hp
  have hnext := nextPc_le hpc
  refine ⟨?_, fun a ha => ?_, fun hu => ?_⟩
  · obtain he | he | hle | hmem | he := h.pc_cases
    · rw [he, setPc_pc]; omega
    · rw [he, setPc_pc, nextPc_toNat]; omega
    · exact hle
    · have := hstack _ hmem; omega
    · rw [he, setPc_pc, instrPc_nextPc]; omega
  · obtain rfl | ha := h.mem_stack ha
    · exact hnext
    · exact hstack a ha
  · rw [h.pc_of_wait hm hu, setPc_pc, instrPc_nextPc]
    exact hpc

/-! ### What a step keeps of the invariants -/

/-- Under `Fault`, PC at a step that fetches its word is at most 0xFFE (R54). -/
theorem pc_le_of_fetch {s : State} {op : Word} (hf : fetch s s.pc = .ok op) (hp : s.params.addrPolicy = .fault) :
    s.pc.toNat ≤ 0xFFE := by
  have hlt : s.pc.toNat + 1 < 4096 := fetch_ok_bound s s.pc op hp hf
  omega

/-- A step from `s` to `t` that runs no body: it writes neither the stack, nor memory, nor the parameters, and at most
moves PC past an instruction that was fetched or that waited, into the mode Running (R101, R104, R106, R215). -/
structure QuietStep (s t : State) : Prop where
  stack : t.stack = s.stack
  mem : t.mem = s.mem
  params : t.params = s.params
  control : (t.pc = s.pc ∧ t.mode = s.mode) ∨
    (t.pc = nextPc s.pc ∧ t.mode = .running ∧ ((∃ op, fetch s s.pc = .ok op) ∨ s.mode ≠ .running))

theorem quietStep_halt {s t : State} {k : FaultKind} {a : Word} {op : Option Word} {e : Option Nat}
    (h : halt k a op e s = .next t) : QuietStep s t := by
  rw [halt_next] at h
  subst h
  exact ⟨rfl, rfl, rfl, .inl ⟨rfl, rfl⟩⟩

theorem quietStep_keyResume {s t : State} {x : Reg} (hm : s.mode = .awaitingKey x) (h : keyResume x s = .next t) :
    QuietStep s t := by
  obtain ⟨j, -, hk⟩ | ⟨-, hk⟩ := keyResume_cases s x
  · rw [hk, finish_next] at h
    subst h
    exact ⟨rfl, rfl, rfl, .inr ⟨rfl, rfl, .inr (by simp [hm])⟩⟩
  · rw [hk, block_next] at h
    subst h
    exact ⟨rfl, rfl, rfl, .inl ⟨rfl, rfl⟩⟩

theorem quietStep_unknownOpcode {s t : State} {op : Word} (hm : s.mode = .running) (hf : fetch s s.pc = .ok op)
    (h : unknownOpcode op s = .next t) : QuietStep s t := by
  obtain ⟨-, hk⟩ | ⟨-, hk⟩ := unknownOpcode_cases s op
  · exact quietStep_halt (hk ▸ h)
  · rw [hk] at h
    cases h
    exact ⟨rfl, rfl, rfl, .inr ⟨rfl, hm, .inl ⟨op, hf⟩⟩⟩

/-- A step that answers a next state runs the body of the instruction it fetched, or is quiet. -/
theorem step_runs_or_quiet {s t : State} (h : step s = .next t) :
    (s.mode = .running ∧ (∃ op, fetch s s.pc = .ok op) ∧
      ∃ i u r, t = u.setStatus r ∧ BodyLeaves (s.setPc (nextPc s.pc)) i u) ∨ QuietStep s t := by
  obtain ⟨hf, -⟩ := stepLeaves_of_step_next h
  cases hm : s.mode with
  | awaitingKey x =>
    rw [step_awaiting s x hf hm] at h
    exact .inr (quietStep_keyResume hm h)
  | running =>
    rw [step_running s hf hm] at h
    cases hfetch : fetch s s.pc with
    | error e =>
      rw [stepRunning_fetch_error s e hfetch] at h
      exact .inr (quietStep_halt h)
    | ok op =>
      cases hdec : decode s.params.sysPolicy op with
      | error j =>
        rw [stepRunning_unknown s op j hfetch hdec] at h
        exact .inr (quietStep_unknownOpcode hm hfetch h)
      | ok i =>
        rw [stepRunning_exec s op i hfetch hdec] at h
        exact .inl ⟨rfl, ⟨op, rfl⟩, i, bodyLeaves_of_exec_next h⟩

theorem QuietStep.wf {s t : State} (h : QuietStep s t) (hs : s.wf) : t.wf := by
  rw [State.wf, h.params, h.mem, h.stack]
  exact hs

theorem QuietStep.pcBounded {s t : State} (h : QuietStep s t) (hb : s.pcBounded) : t.pcBounded := by
  intro hp
  rw [h.params] at hp
  obtain ⟨hpc, hstack, hwait⟩ := hb hp
  rw [h.stack]
  obtain ⟨hpc', hmode⟩ | ⟨hpc', hmode, hfetched⟩ := h.control
  · rw [hpc', hmode]
    exact ⟨hpc, hstack, hwait⟩
  · have hle : s.pc.toNat ≤ 0xFFE := by
      obtain ⟨op, hf⟩ | hm := hfetched
      · exact pc_le_of_fetch hf hp
      · exact hwait hm
    rw [hpc']
    exact ⟨(nextPc_le hle).trans (by decide), hstack, fun hne => absurd hmode hne⟩

/-- Settles O16: a body writes memory by stores only, which keep the canonical form, and adds to the stack by a CALL
with fewer than 16 entries only; a step that runs no body writes neither. -/
theorem stepKeepsWellFormedness : Obligations.StepKeepsWellFormedness := by
  unfold Obligations.StepKeepsWellFormedness
  intro s t hs hstep
  obtain ⟨-, -, i, u, r, rfl, hbody⟩ | hquiet := step_runs_or_quiet hstep
  · exact hbody.wf hs
  · exact hquiet.wf hs

/-- Settles O18: a fetch succeeds at or below 0xFFE only, so PC after it, and with it every return address, is at most
0x1000, and no jump reaches past 0xFFF + 0xFF. -/
theorem stepKeepsPcBounded : Obligations.StepKeepsPcBounded := by
  unfold Obligations.StepKeepsPcBounded
  intro s t hb hstep
  obtain ⟨hm, ⟨op, hf⟩, i, u, r, rfl, hbody⟩ | hquiet := step_runs_or_quiet hstep
  · exact hbody.pcBounded hm (pc_le_of_fetch hf) hb
  · exact hquiet.pcBounded hb

/-- Settles O20, by the ways a step ends. -/
theorem stepNeverWritesKeysOrParameters : Obligations.StepNeverWritesKeysOrParameters := by
  unfold Obligations.StepNeverWritesKeysOrParameters
  intro s t hstep
  obtain ⟨-, hl⟩ := stepLeaves_of_step_next hstep
  cases hl with
  | finished hm u hu => exact ⟨hu.keys, hu.params⟩
  | _ => exact ⟨rfl, rfl⟩

end Sys2Proof.Machine
end

section
/-! PROOF. What reset builds, and the invariants under every operation of the host: O15, O58 and O60. -/

namespace Sys2Proof.Machine

/-! ### The machine after reset -/

theorem initial_wf {p : Params} (hp : p.wf) : (State.initial p).wf :=
  ⟨hp, ⟨List.Pairwise.nil, fun _ hc => nomatch hc⟩, Nat.zero_le _⟩

theorem initial_coherent (p : Params) : (State.initial p).coherent :=
  ⟨trivial, show (none : Option Status) ≠ some .blocked by decide⟩

theorem initial_pcBounded (p : Params) : (State.initial p).pcBounded :=
  fun _ => ⟨show (0x200 : Word).toNat ≤ 0x10FE by decide, List.forall_mem_nil _, fun hm => absurd rfl hm⟩

/-- Settles O15, one lemma per invariant. -/
theorem resetMeetsTheInvariants : Obligations.ResetMeetsTheInvariants := by
  unfold Obligations.ResetMeetsTheInvariants
  exact ⟨by decide, rfl, fun p hp => ⟨initial_wf hp, initial_coherent p, initial_pcBounded p⟩⟩

/-! ### Loading a ROM -/

theorem background_font (p : Params) (k : Nat) (hk : k < 80) :
    Memory.background p (p.fontBase + k) = p.fontData[k] := by
  rw [Memory.background, dif_pos ⟨by omega, by omega⟩]
  congr 1
  omega

theorem background_zero (p : Params) (a : Nat) (ha : a < p.fontBase ∨ p.fontBase + 80 ≤ a) :
    Memory.background p a = 0 := by
  rw [Memory.background, dif_neg (by omega)]

/-- A reset with a ROM that fits changes the memory of the fresh machine only: the ROM stands from 0x200 up, and every
other address reads as its background (R270). -/
theorem resetRom_mem (s : State) (rom : List Byte) (hlen : rom.length ≤ 3584) :
    ∃ m, s.resetRom rom = .ok (s.cleared.setMem m) ∧ Memory.wf s.params m ∧
      (∀ k (hk : k < rom.length), Memory.read s.params m (0x200 + k) = rom[k]) ∧
      (∀ a, (a < 0x200 ∨ 0x200 + rom.length ≤ a) → Memory.read s.params m a = Memory.background s.params a) := by
  obtain ⟨u, hstore, hreset⟩ := resetRom_fits s rom hlen
  obtain ⟨hu, hwf⟩ := storeBytes_ok _ _ _ _ hstore
  obtain ⟨hrom, hother⟩ := storeBytes_read rom 0x200 s.cleared u List.Pairwise.nil (hlen.trans (by decide)) hstore
  have hcell : ∀ k < rom.length, (0x200 + k) % 4096 = 0x200 + k := fun k hk => Nat.mod_eq_of_lt (by omega)
  refine ⟨u.mem, hu ▸ hreset, hwf ⟨List.Pairwise.nil, fun _ hc => nomatch hc⟩, fun k hk => ?_, fun a ha => ?_⟩
  · rw [← hcell k hk]
    exact hrom k hk
  · refine hother a fun k hk => ?_
    rw [hcell k hk]
    omega

theorem apply_reset_ok {s t : State} {rom : List Byte} (h : s.resetRom rom = .ok t) : s.apply (.reset rom) = t := by
  rw [State.apply, h]

theorem apply_reset_error {s : State} {k : FaultKind} {rom : List Byte} (h : s.resetRom rom = .error k) :
    s.apply (.reset rom) = s := by
  rw [State.apply, h]

/-- Settles O58: the memory is that of `resetRom_mem`, every other field that of the fresh machine. -/
theorem resetLoadsRomOrFails : Obligations.ResetLoadsRomOrFails := by
  unfold Obligations.ResetLoadsRomOrFails
  intro s rom (hp : s.params.fontBase + 80 ≤ 0x200)
  refine ⟨fun hfits => ?_, fun hlong => ?_⟩
  · obtain ⟨m, hreset, -, hrom, hother⟩ := resetRom_mem s rom hfits
    refine ⟨_, hreset, apply_reset_ok hreset, hrom, fun k hk => ?_, fun a hfont ha => ?_, fun r => ?_, rfl, rfl, rfl,
      rfl, rfl, pixel_blank, fun k => ?_, rfl, rfl, rfl⟩
    · exact (hother _ (.inl (by omega))).trans (background_font s.params k hk)
    · exact (hother a ha).trans (background_zero s.params a hfont)
    · exact Vector.getElem_replicate r.isLt
    · exact Vector.getElem_replicate k.isLt
  · have hreset := resetRom_too_large s rom hlong
    exact ⟨hreset, apply_reset_error hreset⟩

/-! ### The host's operations -/

/-- The machine `t` meets the three invariants and has the parameters of `s`. -/
abbrev KeepsInvariants (s t : State) : Prop := t.wf ∧ t.coherent ∧ t.pcBounded ∧ t.params = s.params

/-- A step of a faulted machine changes nothing (R100); every other step answers a next state. -/
theorem apply_step_keeps_invariants {s : State} (hw : s.wf) (hc : s.coherent) (hb : s.pcBounded) :
    KeepsInvariants s (s.apply .step) := by
  rw [State.apply]
  split
  · next t h =>
    exact ⟨stepKeepsWellFormedness s t hw h, stepKeepsStatusCoherent s t hc h, stepKeepsPcBounded s t hb h,
      (stepNeverWritesKeysOrParameters s t h).2⟩
  · exact ⟨hw, hc, hb, rfl⟩
  · exact ⟨hw, hc, hb, rfl⟩

/-- A reset that succeeds builds the fresh machine with another memory in canonical form; one that fails changes
nothing (R270, R272). -/
theorem apply_reset_keeps_invariants {s : State} (rom : List Byte) (hw : s.wf) (hc : s.coherent) (hb : s.pcBounded) :
    KeepsInvariants s (s.apply (.reset rom)) := by
  by_cases hfits : rom.length ≤ 3584
  · obtain ⟨m, hreset, hm, -⟩ := resetRom_mem s rom hfits
    obtain ⟨hp, -, hstack⟩ := initial_wf hw.1
    rw [apply_reset_ok hreset]
    exact ⟨⟨hp, hm, hstack⟩, initial_coherent s.params, initial_pcBounded s.params, rfl⟩
  · rw [apply_reset_error (resetRom_too_large s rom (Nat.lt_of_not_le hfits))]
    exact ⟨hw, hc, hb, rfl⟩

/-- Settles O60: the step by O16, O17, O18 and O20, the reset by what it builds; a tick and a key event write only the
timers and the key flags, of which no invariant speaks. -/
theorem hostOperationsKeepTheInvariants : Obligations.HostOperationsKeepTheInvariants := by
  unfold Obligations.HostOperationsKeepTheInvariants
  intro s op hw hc hb
  cases op with
  | step => exact apply_step_keeps_invariants hw hc hb
  | reset rom => exact apply_reset_keeps_invariants rom hw hc hb
  | tick => exact ⟨hw, hc, hb, rfl⟩
  | setKey k pressed =>
    rw [State.apply, setKey_eq]
    exact ⟨hw, hc, hb, rfl⟩
  | snapshot | soundActive => exact ⟨hw, hc, hb, rfl⟩

end Sys2Proof.Machine
end

section
/-! PROOF. The accesses of memory: a store changes the bytes it names and nothing else, a fetch reads two bytes
big-endian; from these O7, O8, O44 and O59. -/

namespace Sys2Proof.Machine

/-! ### Writes -/

/-- Replacing the memory changes no part of the machine but bytes: the frame is left to check for those only. -/
theorem unchangedBut_setMem {changed : Part → Prop} {s : State} {m : Memory}
    (h : ∀ a, ¬ changed (.byte a) → Memory.read s.params m a = s.byteAt a) : unchangedBut changed s (s.setMem m) := by
  intro p hp
  cases p with
  | byte a => exact h a hp
  | _ => rfl

/-- Read after a byte write (R53). -/
theorem byteAt_setMem_write {s : State} (hw : Memory.wf s.params s.mem) (c : Nat) (b : Byte) (a : Nat) :
    (s.setMem (Memory.write s.params s.mem c b)).byteAt a = if a = c then b else s.byteAt a :=
  read_write s.params s.mem hw.1 c b a

/-- Settles O8: the address resolves to its remainder mod 4096 where the access is in reach, and to an error where it
is not; the frame is read after write. -/
theorem byteWriteIsBoundsChecked : Obligations.ByteWriteIsBoundsChecked := by
  unfold Obligations.ByteWriteIsBoundsChecked
  intro s a b hw
  refine ⟨fun hreach => ⟨memRead_reach s a hreach, _, memWrite_reach s a b hreach, ?_, ?_⟩,
    fun hp ha => ⟨memWrite_beyond s a b hp ha, memRead_beyond s a hp ha⟩⟩
  · rw [byteAt_setMem_write hw, if_pos rfl]
  · refine unchangedBut_setMem fun c hc => ?_
    have hne : c ≠ a % 4096 := fun he => hc (congrArg Part.byte he)
    exact (byteAt_setMem_write hw _ b c).trans (if_neg hne)

/-- A bulk write inside memory changes the memory only: byte `k` stands at `offset + k`, and every other address reads
as before, whatever the policy (R55). -/
theorem load_mem {s : State} {offset : Nat} {bytes : List Byte} (hw : Memory.wf s.params s.mem)
    (hfits : offset + bytes.length ≤ 4096) :
    ∃ m, s.load offset bytes = .ok (s.setMem m) ∧
      (∀ k (hk : k < bytes.length), Memory.read s.params m (offset + k) = bytes[k]) ∧
      (∀ a, (∀ k < bytes.length, a ≠ offset + k) → Memory.read s.params m a = s.byteAt a) := by
  obtain ⟨u, hstore, hload⟩ := load_reach s offset bytes hfits
  obtain ⟨hu, -⟩ := storeBytes_ok _ _ _ _ hstore
  obtain ⟨hnew, hold⟩ := storeBytes_read bytes offset s u hw.1 ((Nat.le_add_left _ _).trans hfits) hstore
  have hcell : ∀ k < bytes.length, (offset + k) % 4096 = offset + k := fun k hk => Nat.mod_eq_of_lt (by omega)
  refine ⟨u.mem, hu ▸ hload, fun k hk => ?_, fun a ha => hold a fun k hk => ?_⟩
  · rw [← hcell k hk]
    exact hnew k hk
  · rw [hcell k hk]
    exact ha k hk

/-- Settles O59, with the memory of `load_mem`. -/
theorem bulkHostLoadWritesOrFails : Obligations.BulkHostLoadWritesOrFails := by
  unfold Obligations.BulkHostLoadWritesOrFails
  intro s offset bytes hw
  refine ⟨fun hfits => ?_, load_beyond s offset bytes⟩
  obtain ⟨m, hload, hnew, hold⟩ := load_mem hw hfits
  exact ⟨_, hload, hnew, unchangedBut_setMem fun a ha => hold a fun k hk he => ha ⟨k, hk, congrArg Part.byte he⟩⟩

/-! ### The fetch -/

/-- A fetch in reach answers the big-endian number of the two bytes (R54). -/
theorem fetch_bigEndian {s : State} {a : Word} (h : s.params.addrPolicy = .wrap ∨ a.toNat + 1 < 4096) :
    ∃ w, fetch s a = .ok w ∧
      w.toNat = 256 * (s.byteAt (a.toNat % 4096)).toNat + (s.byteAt ((a.toNat + 1) % 4096)).toNat :=
  ⟨_, fetch_reach s a h, beWord_toNat _ _⟩

/-- Settles O7: a fetch out of reach fails at the first of the two addresses that does not exist, the second one at
4095 and the first one from 4096 up. -/
theorem fetchReadsBigEndianWord : Obligations.FetchReadsBigEndianWord := by
  unfold Obligations.FetchReadsBigEndianWord
  intro s a
  refine ⟨fetch_bigEndian, fun hp ha => ?_, fun hp ha => ?_⟩
  · rw [fetch_beyond s a hp (Nat.succ_le_succ ha.ge), firstBeyond, ha, Nat.max_eq_right (by decide)]
  · rw [fetch_beyond s a hp (Nat.le_succ_of_le ha), firstBeyond, Nat.max_eq_left ha]

/-! ### FX55, then a fetch -/

/-- FX55 in reach stores V0..Vx and ends normally (R174). -/
theorem ldStore_stores {s t : State} {x : Reg} (hreach : s.inReach (baseAddr s) (x.val + 1))
    (h : exec (.ldStore x) s = .next t) :
    ∃ u, storeBytes (baseAddr s) (s.firstVs x) s = .ok u ∧ t = (advanceI x u).setStatus .ok := by
  obtain ⟨u, hstore, hx⟩ | ⟨e, herror, -⟩ := execLdStore_cases s x
  · exact ⟨u, hstore, (finish_next _ t).1 (hx.symm.trans h)⟩
  · obtain ⟨u, hstore⟩ := storeBytes_reach (s.firstVs x) (baseAddr s) s (by rwa [firstVs_length])
    cases herror.symm.trans hstore

/-- FX55 in reach keeps the parameters and leaves each of V0..Vx in the cell of its address (R174). -/
theorem ldStore_byteAt {s t : State} {x : Reg} (hw : Memory.wf s.params s.mem)
    (hreach : s.inReach (baseAddr s) (x.val + 1)) (h : exec (.ldStore x) s = .next t) :
    t.params = s.params ∧ ∀ k ≤ x, t.byteAt ((baseAddr s + k.val) % 4096) = s.getV k := by
  obtain ⟨u, hstore, rfl⟩ := ldStore_stores hreach h
  have hparams : u.params = s.params := (sameControl_storeBytes hstore).params
  have hlen : (s.firstVs x).length ≤ memSize := by rw [firstVs_length]; exact x.isLt.trans (by decide)
  obtain ⟨hnew, -⟩ := storeBytes_read _ _ _ _ hw.1 hlen hstore
  rw [advanceI_eq]
  refine ⟨hparams, fun k hk => ?_⟩
  calc Memory.read u.params u.mem ((baseAddr s + k.val) % 4096)
    _ = (s.firstVs x)[k.val]'(by rw [firstVs_length]; exact Nat.lt_succ_of_le hk) := hparams ▸ hnew k.val _
    _ = s.getV k := firstVs_getElem s x k.val _

/-- Settles O44: the fetch reads the cells of `a` and `a + 1`, in which FX55 left Vk and Vk+1. -/
theorem storedBytesAreFetched : Obligations.StoredBytesAreFetched := by
  unfold Obligations.StoredBytesAreFetched
  intro s t x k a hw hreach hexec hk ha
  obtain ⟨hp, hbyte⟩ := ldStore_byteAt hw hreach hexec
  rw [Fin.lt_def] at hk
  have hnext : (k + 1).val = k.val + 1 := Fin.val_add_one_of_lt' (by omega)
  obtain ⟨w, hfetch, hword⟩ := fetch_bigEndian (s := t) (a := a) (by
    rw [hp]
    exact hreach.imp_right fun (hle : _ ≤ 4096) => by omega)
  refine ⟨w, hfetch, ?_⟩
  rw [hword, ha, Nat.add_assoc, ← hnext, hbyte k (Fin.le_def.2 (by omega)), hbyte (k + 1) (Fin.le_def.2 (by omega))]

end Sys2Proof.Machine
end

section
/-! PROOF. The encoder and the decoder of 30_encoding.md agree: O1 to O4. A branch of the decoder fixes the nibbles or
the byte of the word that its pattern fixes (R73), and its operands are the word's other fields, so the branch and the
pattern determine the word. -/

namespace Sys2Proof

/-! ### A word from the fields a pattern fixes -/

section
variable {op : Word} {h n : Nibble} {nn : Byte}

theorem wordNNN_of_opH (hh : (opH op).toNat = h.toNat) : wordNNN h (opNNN op) = op :=
  BitVec.eq_of_toNat_eq hh ▸ word_eq_NNN op

theorem wordXNN_of_opH (hh : (opH op).toNat = h.toNat) : wordXNN h (opX op) (opNN op) = op :=
  BitVec.eq_of_toNat_eq hh ▸ word_eq_XNN op

theorem wordXNN_of_opH_opNN (hh : (opH op).toNat = h.toNat) (hnn : (opNN op).toNat = nn.toNat) :
    wordXNN h (opX op) nn = op :=
  BitVec.eq_of_toNat_eq hnn ▸ wordXNN_of_opH hh

theorem wordXYN_of_opH (hh : (opH op).toNat = h.toNat) : wordXYN h (opX op) (opY op) (opN op) = op :=
  BitVec.eq_of_toNat_eq hh ▸ word_eq_XYN op

theorem wordXYN_of_opH_opN (hh : (opH op).toNat = h.toNat) (hn : (opN op).toNat = n.toNat) :
    wordXYN h (opX op) (opY op) n = op :=
  BitVec.eq_of_toNat_eq hn ▸ wordXYN_of_opH hh

end

/-! ### Decoding an encoded instruction -/

/-- SYS of an address other than 0x0E0 and 0x0EE has the word of neither CLS nor RET (R74). -/
theorem decodeFamily0_sys {nnn : Addr12} (hcls : nnn ≠ 0x0E0#12) (hret : nnn ≠ 0x0EE#12) :
    decodeFamily0 .ignore (wordNNN 0 nnn) = .ok (.sys nnn) := by
  have hop : opNNN (wordNNN 0 nnn) = nnn := opNNN_wordNNN 0 nnn
  have hcls' : wordNNN 0 nnn ≠ 0x00E0#16 := fun he => hcls (hop ▸ congrArg opNNN he)
  have hret' : wordNNN 0 nnn ≠ 0x00EE#16 := fun he => hret (hop ▸ congrArg opNNN he)
  rw [decodeFamily0, if_neg hcls', if_neg hret', hop]

/-- Settles O2, by the decoder's families: each field of a word put together from its fields is the one put in. -/
theorem decodeOfEncodeAgrees : Obligations.DecodeOfEncodeAgrees := by
  unfold Obligations.DecodeOfEncodeAgrees
  intro p i hi
  cases i with
  | sys nnn =>
    cases p with
    | ignore =>
      obtain ⟨hcls, hret⟩ : nnn ≠ 0x0E0#12 ∧ nnn ≠ 0x0EE#12 := by simpa [Instr.recognised, Instr.wf] using hi
      simpa [decode, encode] using decodeFamily0_sys hcls hret
    | unknown => cases hi
  | cls | ret => rfl
  | ldReg | orReg | andReg | xorReg | addReg | sub | shr | subn | shl => simp [encode, decode, decodeFamily8]
  | skp | sknp => simp [encode, decode, decodeFamilyE]
  | ldVxDt | ldVxK | ldDtVx | ldStVx | addI | ldF | ldB | ldStore | ldLoad => simp [encode, decode, decodeFamilyF]
  | _ => simp [encode, decode]

/-! ### Encoding a decoded instruction -/

/-- The word `op` is the encoding of `i`, which the policy recognises. -/
def EncodesTo (p : SysPolicy) (i : Instr) (op : Word) : Prop := encode i = op ∧ i.recognised p = true

section
variable {p : SysPolicy} {op : Word} {i : Instr}

theorem encodesTo_of_decodeFamily0 (hh : (opH op).toNat = 0) (hd : decodeFamily0 p op = .ok i) :
    EncodesTo p i op := by
  have hw : wordNNN 0 (opNNN op) = op := wordNNN_of_opH hh
  unfold decodeFamily0 at hd
  split_ifs at hd with hcls hret
  · cases hd; exact ⟨hcls.symm, rfl⟩
  · cases hd; exact ⟨hret.symm, rfl⟩
  · cases p with
    | unknown => cases hd
    | ignore =>
      cases hd
      have hcls' : opNNN op ≠ 0x0E0#12 := fun he => hcls (hw.symm.trans (congrArg (wordNNN 0) he))
      have hret' : opNNN op ≠ 0x0EE#12 := fun he => hret (hw.symm.trans (congrArg (wordNNN 0) he))
      exact ⟨hw, by simp [Instr.recognised, Instr.wf, hcls', hret']⟩

theorem encodesTo_of_decodeFamily8 (hh : (opH op).toNat = 8) (hd : decodeFamily8 op = .ok i) :
    EncodesTo p i op := by
  unfold decodeFamily8 at hd
  split at hd <;> cases hd
  all_goals (next hn => exact ⟨wordXYN_of_opH_opN hh hn, rfl⟩)

theorem encodesTo_of_decodeFamilyE (hh : (opH op).toNat = 14) (hd : decodeFamilyE op = .ok i) :
    EncodesTo p i op := by
  unfold decodeFamilyE at hd
  split at hd <;> cases hd
  all_goals (next hnn => exact ⟨wordXNN_of_opH_opNN hh hnn, rfl⟩)

theorem encodesTo_of_decodeFamilyF (hh : (opH op).toNat = 15) (hd : decodeFamilyF op = .ok i) :
    EncodesTo p i op := by
  unfold decodeFamilyF at hd
  split at hd <;> cases hd
  all_goals (next hnn => exact ⟨wordXNN_of_opH_opNN hh hnn, rfl⟩)

end

/-- Settles O3, by the branches of `decode`: the families of several patterns, the two forms hXY0, then the forms hNNN,
hXYN and hXNN. -/
theorem encodeOfDecodeAgrees : Obligations.EncodeOfDecodeAgrees := by
  unfold Obligations.EncodeOfDecodeAgrees
  intro p op i hd
  have hlt := (opH op).isLt
  unfold decode at hd
  split at hd
  case h_1 hh => exact encodesTo_of_decodeFamily0 hh hd
  case h_9 hh => exact encodesTo_of_decodeFamily8 hh hd
  case h_15 hh => exact encodesTo_of_decodeFamilyE hh hd
  case h_16 =>
    have hh : (opH op).toNat = 15 := by grind
    exact encodesTo_of_decodeFamilyF hh hd
  case h_6 hh | h_10 hh =>
    split_ifs at hd with hn
    cases hd
    exact ⟨wordXYN_of_opH_opN hh (congrArg BitVec.toNat hn), rfl⟩
  case h_2 hh | h_3 hh | h_11 hh | h_12 hh => cases hd; exact ⟨wordNNN_of_opH hh, rfl⟩
  case h_14 hh => cases hd; exact ⟨wordXYN_of_opH hh, rfl⟩
  all_goals (next hh => cases hd; exact ⟨wordXNN_of_opH hh, rfl⟩)

/-! ### The unknown encodings -/

/-- The high nibble is the word's number divided by 4096. -/
theorem opH_toNat_eq_div (op : Word) : (opH op).toNat = op.toNat / 4096 := by
  have := op.isLt
  rw [opH_toNat]; omega

theorem opN_eq_zero_iff (op : Word) : opN op = 0#4 ↔ op.toNat % 16 = 0 := by
  rw [← opN_toNat, ← BitVec.toNat_inj]; rfl

/-! Which words each family leaves unknown: its rows of the table of R76. -/

section
variable {p : SysPolicy} {op : Word}

theorem decodeFamily0_unknown_iff : decodeFamily0 p op = .error (.unknownOpcode op) ↔
    op.toNat ∉ [0x0E0, 0x0EE] ∧ p = .unknown := by
  have hcls : op.toNat = 0x0E0 ↔ op = 0x00E0#16 := BitVec.toNat_inj (y := 0x00E0#16)
  have hret : op.toNat = 0x0EE ↔ op = 0x00EE#16 := BitVec.toNat_inj (y := 0x00EE#16)
  unfold decodeFamily0
  split_ifs with hc hr
  · simp [hc]
  · simp [hr]
  · cases p <;> simp [hcls, hret, hc, hr]

theorem decodeFamily8_unknown_iff : decodeFamily8 op = .error (.unknownOpcode op) ↔
    op.toNat % 16 ∈ [0x8, 0x9, 0xA, 0xB, 0xC, 0xD, 0xF] := by
  have hlt := (opN op).isLt
  rw [← opN_toNat]
  unfold decodeFamily8
  split
  case h_10 =>
    simp only [List.mem_cons, List.not_mem_nil, or_false, true_iff]
    grind
  all_goals (next hn => simp [hn])

theorem decodeFamilyE_unknown_iff : decodeFamilyE op = .error (.unknownOpcode op) ↔
    op.toNat % 256 ∉ [0x9E, 0xA1] := by
  rw [← opNN_toNat]
  unfold decodeFamilyE
  split <;> simp_all

theorem decodeFamilyF_unknown_iff : decodeFamilyF op = .error (.unknownOpcode op) ↔
    op.toNat % 256 ∉ [0x07, 0x0A, 0x15, 0x18, 0x1E, 0x29, 0x33, 0x55, 0x65] := by
  rw [← opNN_toNat]
  unfold decodeFamilyF
  split <;> simp_all

end

/-- Settles O4, by the branches of `decode`: a family's unknown words are its row of the table, the two forms hXY0 are
unknown where the low nibble is not 0, and every other branch answers an instruction. -/
theorem unknownEncodingsAreTheTable : Obligations.UnknownEncodingsAreTheTable := by
  unfold Obligations.UnknownEncodingsAreTheTable
  intro p op
  have hlt := (opH op).isLt
  rw [← opH_toNat_eq_div]
  unfold decode
  split
  case h_1 hh => simp [hh, decodeFamily0_unknown_iff]
  case h_9 hh => simp [hh, decodeFamily8_unknown_iff]
  case h_15 hh => simp [hh, decodeFamilyE_unknown_iff]
  case h_16 =>
    have hh : (opH op).toNat = 15 := by grind
    simp [hh, decodeFamilyF_unknown_iff]
  case h_6 hh | h_10 hh => simp [hh, opN_eq_zero_iff]
  all_goals (next hh => simp [hh])

/-! ### Sample words -/

/-- Settles O1: the decoder runs on each of the fixed words. -/
theorem sampleWordsDecode : Obligations.SampleWordsDecode := by
  unfold Obligations.SampleWordsDecode
  decide

end Sys2Proof
end

section
/-! PROOF. What one step does, by the mode and the word at PC, and the placing of an instruction: O5, O6, O9, O10 and
O51. -/

namespace Sys2Proof.Machine

/-! ### The word at PC -/

section
variable {s : State} (hf : s.fault = none) (hm : s.mode = .running)
include hf hm

theorem step_of_fetch_error {e : Nat} (hfetch : fetch s s.pc = .error e) :
    step s = halt .addressingError s.pc none (some e) s :=
  (step_running s hf hm).trans (stepRunning_fetch_error s e hfetch)

theorem step_of_decode_error {op : Word} {j : Reject} (hfetch : fetch s s.pc = .ok op)
    (hdec : decode s.params.sysPolicy op = .error j) : step s = unknownOpcode op s :=
  (step_running s hf hm).trans (stepRunning_unknown s op j hfetch hdec)

theorem step_of_decode_ok {op : Word} {i : Instr} (hfetch : fetch s s.pc = .ok op)
    (hdec : decode s.params.sysPolicy op = .ok i) : step s = exec i (s.setPc (nextPc s.pc)) :=
  (step_running s hf hm).trans (stepRunning_exec s op i hfetch hdec)

end

/-- Settles O5: the advance by 2 is the one of the fetch. -/
theorem stepRunsDecodedInstruction : Obligations.StepRunsDecodedInstruction := by
  unfold Obligations.StepRunsDecodedInstruction
  intro s op i hf hm hfetch hdec
  exact step_of_decode_ok hf hm hfetch hdec

/-! ### Placing an instruction -/

/-- A word placed inside memory changes the memory only, at its two addresses (R54, log 25). -/
theorem placeWord_mem {s : State} {a : Word} (op : Word) (hw : Memory.wf s.params s.mem) (ha : a.toNat + 1 < 4096) :
    ∃ m, s.placeWord a op = s.setMem m ∧
      ∀ c, c ≠ a.toNat → c ≠ a.toNat + 1 → Memory.read s.params m c = s.byteAt c := by
  obtain ⟨u, hstore⟩ := storeBytes_reach [hiByte op, loByte op] a.toNat s (.inr ha)
  obtain ⟨hu, -⟩ := storeBytes_ok _ _ _ _ hstore
  obtain ⟨-, hold⟩ := storeBytes_read _ _ _ _ hw.1 (by simp [memSize]) hstore
  refine ⟨u.mem, by rw [State.placeWord, hstore]; exact hu, fun c hhi hlo => hold c fun k (hk : k < 2) => ?_⟩
  have hcell : (a.toNat + k) % 4096 = a.toNat + k := Nat.mod_eq_of_lt (by omega)
  rw [hcell]
  omega

/-- A running machine with no fault whose PC is inside memory needs no preparation: the host places the instruction's
word at PC (log 25). -/
theorem withFetchWord_encode {s : State} (i : Instr) (hf : s.fault = none) (hm : s.mode = .running)
    (hpc : s.pc.toNat + 1 < 4096) : s.withFetchWord 16 (encode i).toNat = s.placeWord s.pc (encode i) := by
  have hplace : s.fetchPc = s.pc := by rw [State.fetchPc, fetch_reach s s.pc (.inr hpc)]
  have hready : { s with fault := none, mode := .running, pc := s.pc } = s := by rw [← hf, ← hm]
  have hword : BitVec.ofNat 16 ((encode i).toNat % 2 ^ 16) = encode i := by
    rw [Nat.mod_eq_of_lt (encode i).isLt, BitVec.ofNat_toNat, BitVec.setWidth_eq]
  rw [State.withFetchWord, hplace, hready, hword]

/-- Settles O6: the placed word is fetched and decodes to the instruction it encodes, and only its two bytes are
written. -/
theorem placedInstructionRuns : Obligations.PlacedInstructionRuns := by
  unfold Obligations.PlacedInstructionRuns
  intro s i hw hf hm hpc hi
  have hfetch : fetch (s.placeWord s.pc (encode i)) s.pc = .ok (encode i) :=
    fetch_placeWord s s.pc (encode i) hw.1 hpc
  obtain ⟨m, hplace, hold⟩ := placeWord_mem (encode i) hw hpc
  rw [hplace] at hfetch
  refine ⟨s.setMem m, ((withFetchWord_encode i hf hm hpc).trans hplace).symm, ?_, unchangedBut_setMem fun c hc => ?_⟩
  · exact step_of_decode_ok (s := s.setMem m) hf hm hfetch (decodeOfEncodeAgrees _ i hi)
  · exact hold c (fun he => hc (.inl (congrArg Part.byte he))) (fun he => hc (.inr (congrArg Part.byte he)))

/-! ### Steps that run no instruction -/

theorem unchangedBut_refl (changed : Part → Prop) (s : State) : unchangedBut changed s s := by
  intro p _
  cases p <;> rfl

/-- The status is no part of the machine: it is what the step returns (R13, log 2). -/
theorem unchangedBut_setStatus {changed : Part → Prop} {s u : State} (h : unchangedBut changed s u) (q : Status) :
    unchangedBut changed s (u.setStatus q) := by
  intro p hp
  have hsame := h p hp
  cases p <;> exact hsame

theorem unchangedBut_setFault (s : State) (r : FaultRecord) :
    unchangedBut (fun p => p = .fault) s (s.setFault r) := by
  intro p hp
  cases p with
  | fault => exact absurd rfl hp
  | _ => rfl

theorem unchangedBut_setPc (s : State) (a : Word) : unchangedBut (fun p => p = .pc) s (s.setPc a) := by
  intro p hp
  cases p with
  | pc => exact absurd rfl hp
  | _ => rfl

/-- Settles O9: the step takes the fault of the fetch on the state before it. -/
theorem fetchFaultIsRecorded : Obligations.FetchFaultIsRecorded := by
  unfold Obligations.FetchFaultIsRecorded
  intro s e hf hm hfetch
  exact ⟨_, step_of_fetch_error hf hm hfetch, rfl, rfl, unchangedBut_setStatus (unchangedBut_setFault s _) _⟩

/-- Settles O10: the step is `unknownOpcode`, and the policy selects which of its two outcomes. -/
theorem unknownOpcodeFollowsPolicy : Obligations.UnknownOpcodeFollowsPolicy := by
  unfold Obligations.UnknownOpcodeFollowsPolicy
  intro s op j hf hm hfetch hdec
  rw [step_of_decode_error hf hm hfetch hdec]
  obtain ⟨hp, h⟩ | ⟨hp, h⟩ := unknownOpcode_cases s op
  · exact ⟨fun _ => ⟨_, h, rfl, rfl, unchangedBut_setStatus (unchangedBut_setFault s _) _⟩,
      fun hp' => nomatch hp.symm.trans hp'⟩
  · exact ⟨fun hp' => (nomatch hp.symm.trans hp'),
      fun _ => ⟨_, h, nextPc_toNat s.pc, rfl, unchangedBut_setStatus (unchangedBut_setPc s _) _⟩⟩

/-! ### The key wait -/

theorem keyPressed_val (keys : Vector Bool 16) (k : Key) : keyPressed keys k.val = keys[k] :=
  keyPressed_of_lt keys k.val k.isLt

theorem keyCode_toNat (j : Key) : (keyCode j).toNat = j.val := by
  have := j.isLt
  rw [keyCode, BitVec.toNat_ofNat]
  omega

/-- The frame of a wait that ends with a key (R215). -/
theorem unchangedBut_resume (s : State) (x : Reg) (b : Byte) (a : Word) (m : Mode) :
    unchangedBut (fun p => p = .v x ∨ p = .pc ∨ p = .mode ∨ p = .draws) s
      (((s.setV x b).setPc a).setMode m).countDraw := by
  intro p hp
  cases p with
  | v r => exact getV_setV_ne s x r b fun he => hp (.inl (congrArg Part.v he))
  | pc => exact absurd (.inr (.inl rfl)) hp
  | mode => exact absurd (.inr (.inr (.inl rfl))) hp
  | draws => exact absurd (.inr (.inr (.inr rfl))) hp
  | _ => rfl

/-- Settles O51: `KEY_SELECT` answers a pressed key exactly when there is one. -/
theorem waitingStepResumesOnKey : Obligations.WaitingStepResumesOnKey := by
  unfold Obligations.WaitingStepResumesOnKey
  intro s x hf hm
  rw [step_awaiting s x hf hm]
  obtain ⟨j, hj, h⟩ | ⟨hnone, h⟩ := keyResume_cases s x
  · have hpressed : s.keys[j] = true := (keyPressed_val s.keys j).symm.trans (anyPressed_some s j hj)
    have hframe := unchangedBut_resume s x (keyCode j) (nextPc s.pc) .running
    refine ⟨fun _ => ⟨_, j, h, hpressed, ?_, nextPc_toNat s.pc, rfl, rfl, unchangedBut_setStatus hframe .ok⟩,
      fun hall => nomatch hpressed.symm.trans (hall j)⟩
    exact (congrArg BitVec.toNat (getV_setV_same s x _)).trans (keyCode_toNat j)
  · refine ⟨fun ⟨k, hk⟩ => ?_, fun _ => ⟨_, h, rfl, unchangedBut_setStatus (unchangedBut_refl _ s) _⟩⟩
    have hreleased := (anyPressed_none s).1 hnone k
    rw [keyPressed_val, hk] at hreleased
    cases hreleased

end Sys2Proof.Machine
end

section
/-! PROOF. What a fault records, and what goes on after it: O11 and O14. -/

namespace Sys2Proof.Machine

/-! ### The record of a fault -/

/-- Whatever fault the outcome reports, the record names the address `a` and the word `op`, and it holds an
out-of-range address exactly for an AddressingError (R231). -/
def RecordsAt (a : Word) (op : Option Word) (o : Outcome) : Prop :=
  ∀ t r, o = .next t → t.status = some (.faulted r) →
    r.pc = a ∧ r.opcode = op ∧ (r.kind = .addressingError ↔ r.addr ≠ none)

section
variable {a : Word} {op : Option Word} {o : Outcome}

/-- An outcome that reports no fault meets `RecordsAt`. -/
theorem recordsAt_next {u : State} (h : o = .next u) (hu : ∀ r, u.status ≠ some (.faulted r)) : RecordsAt a op o := by
  intro t r ht hr
  cases h.symm.trans ht
  exact absurd hr (hu r)

theorem recordsAt_finish {u : State} (h : o = finish u) : RecordsAt a op o :=
  recordsAt_next h fun _ => nofun

theorem recordsAt_block {u : State} (h : o = block u) : RecordsAt a op o :=
  recordsAt_next h fun _ => nofun

theorem recordsAt_halt {k : FaultKind} {e : Option Nat} {s : State} (h : o = halt k a op e s)
    (hk : k = .addressingError ↔ e ≠ none) : RecordsAt a op o := by
  intro t r ht hr
  cases h.symm.trans ht
  cases hr
  exact ⟨rfl, rfl, hk⟩

end

/-- A body names its own address and word: RET and CALL raise faults without an address, the transfers at I faults
with one, and no other body raises any (R232). -/
theorem exec_recordsAt (i : Instr) (s : State) : RecordsAt (instrPc s.pc) (some (encode i)) (exec i s) := by
  have hstack {k} (hk : k ≠ .addressingError) (h : exec i s = raise k i none s) :
      RecordsAt (instrPc s.pc) (some (encode i)) (exec i s) := recordsAt_halt h (iff_of_false hk (by simp))
  have hmem {e} (h : exec i s = raise .addressingError i (some e) s) :
      RecordsAt (instrPc s.pc) (some (encode i)) (exec i s) := recordsAt_halt h (iff_of_true rfl (by simp))
  cases i with
  | ret =>
    obtain ⟨-, h⟩ | ⟨a, l, -, h⟩ := execRet_cases s
    · exact hstack (by decide) h
    · exact recordsAt_finish h
  | call nnn =>
    obtain ⟨-, h⟩ | ⟨-, h⟩ := execCall_cases s nnn
    · exact hstack (by decide) h
    · exact recordsAt_finish h
  | drw x y n =>
    obtain ⟨rows, -, h⟩ | ⟨e, -, h⟩ := execDrw_cases s x y n
    · exact recordsAt_finish h
    · exact hmem h
  | ldVxK x =>
    obtain ⟨j, -, h⟩ | ⟨-, h⟩ := execLdVxK_cases s x
    · exact recordsAt_finish h
    · exact recordsAt_block h
  | ldB x =>
    obtain ⟨u, -, h⟩ | ⟨e, -, h⟩ := execLdB_cases s x
    · exact recordsAt_finish h
    · exact hmem h
  | ldStore x =>
    obtain ⟨u, -, h⟩ | ⟨e, -, h⟩ := execLdStore_cases s x
    · exact recordsAt_finish h
    · exact hmem h
  | ldLoad x =>
    obtain ⟨bs, -, h⟩ | ⟨e, -, h⟩ := execLdLoad_cases s x
    · exact recordsAt_finish h
    · exact hmem h
  | _ => exact recordsAt_finish rfl

/-- A step names the address and the word that it fetched: an instruction's word is its encoding, so the record that
its body makes holds the word itself (R74, R231). -/
theorem step_recordsAt {s : State} {op : Word} (hf : s.fault = none) (hm : s.mode = .running)
    (hfetch : fetch s s.pc = .ok op) : RecordsAt s.pc (some op) (step s) := by
  cases hdec : decode s.params.sysPolicy op with
  | error j =>
    rw [step_of_decode_error hf hm hfetch hdec]
    obtain ⟨-, h⟩ | ⟨-, h⟩ := unknownOpcode_cases s op
    · exact recordsAt_halt h (by decide)
    · exact recordsAt_next h fun _ => nofun
  | ok i =>
    rw [step_of_decode_ok hf hm hfetch hdec]
    have hexec := exec_recordsAt i (s.setPc (nextPc s.pc))
    rwa [setPc_pc, instrPc_nextPc, (encodeOfDecodeAgrees _ op i hdec).1] at hexec

/-- Of the ways a step ends, one alone records a fault, and it keeps nothing else (R106). -/
theorem StepLeaves.eq_of_fault {s t : State} {r : FaultRecord} (h : StepLeaves s t) (hf : s.fault = none)
    (hr : t.fault = some r) : s.mode = .running ∧ t = (s.setFault r).setStatus (.faulted r) := by
  cases h with
  | faulted hm r' => cases hr; exact ⟨hm, rfl⟩
  | finished hm u hu => exact nomatch (hu.fault.trans hf).symm.trans hr
  | _ => exact nomatch hf.symm.trans hr

/-- Settles O11: the state by the ways a step ends, the record by what the fetch answers. -/
theorem faultCommitsNothing : Obligations.FaultCommitsNothing := by
  unfold Obligations.FaultCommitsNothing
  intro s t r hf hstep hr
  obtain ⟨hm, rfl⟩ := (stepLeaves_of_step_next hstep).2.eq_of_fault hf hr
  refine ⟨rfl, ?_⟩
  cases hfetch : fetch s s.pc with
  | error e =>
    rw [step_of_fetch_error hf hm hfetch, halt_next] at hstep
    cases congrArg State.fault hstep
    exact ⟨rfl, nofun, fun _ he => by cases he; exact ⟨rfl, rfl, rfl⟩, by simp⟩
  | ok op =>
    obtain ⟨hpc, hop, haddr⟩ := step_recordsAt hf hm hfetch _ r hstep rfl
    exact ⟨hpc, fun _ h => by cases h; exact hop, nofun, haddr⟩

/-! ### A faulted machine -/

/-- On a faulted machine every operation but a reset writes the timers and the key flags at most (R100, R236). -/
theorem apply_of_faulted {s : State} {r : FaultRecord} (hf : s.fault = some r) {op : HostOp}
    (hop : ∀ rom, op ≠ .reset rom) : ∃ d e k, s.apply op = ((s.setDt d).setSt e).setKeys k := by
  cases op with
  | step =>
    rw [State.apply, step_faulted s r hf]
    exact ⟨s.dt, s.st, s.keys, rfl⟩
  | tick => exact ⟨tickTimer s.dt, tickTimer s.st, s.keys, rfl⟩
  | setKey k pressed => exact ⟨s.dt, s.st, _, setKey_eq s k pressed⟩
  | snapshot | soundActive => exact ⟨s.dt, s.st, s.keys, rfl⟩
  | reset rom => exact absurd rfl (hop rom)

/-- On a faulted machine every schedule without a reset writes the timers and the key flags at most (R235, R236). -/
theorem runSchedule_of_faulted {r : FaultRecord} {ops : List HostOp} (hops : ∀ rom, HostOp.reset rom ∉ ops) :
    ∀ {s : State}, s.fault = some r → ∃ d e k, runSchedule ops s = ((s.setDt d).setSt e).setKeys k := by
  induction ops with
  | nil => exact fun {s} _ => ⟨s.dt, s.st, s.keys, rfl⟩
  | cons op ops ih =>
    intro s hf
    simp only [List.mem_cons, not_or] at hops
    obtain ⟨d, e, k, hop⟩ := apply_of_faulted hf fun rom he => (hops rom).1 he.symm
    rw [runSchedule, hop]
    exact ih (fun rom => (hops rom).2) hf

/-- Settles O14: by `runSchedule_of_faulted` the state after the schedule differs in the timers and the key flags at
most. -/
theorem faultedMachineMakesNoProgress : Obligations.FaultedMachineMakesNoProgress := by
  unfold Obligations.FaultedMachineMakesNoProgress
  intro s r ops hf hops
  obtain ⟨d, e, k, hrun⟩ := runSchedule_of_faulted hops hf
  rw [hrun]
  refine ⟨step_faulted s r hf, hf, fun p hp => ?_⟩
  cases p with
  | dt => exact absurd (.inl rfl) hp
  | st => exact absurd (.inr (.inl rfl)) hp
  | keys => exact absurd (.inr (.inr rfl)) hp
  | _ => rfl

end Sys2Proof.Machine
end

section
/-! PROOF. The control flow instructions of 41_control_flow.md: jumps, CALL and RET with their stack faults, and the
skips: O23 to O28. -/

namespace Sys2Proof.Machine

/-! ### Jumps -/

theorem addr12_zext_toNat (nnn : Addr12) : (Addr12.zext nnn).toNat = nnn.toNat :=
  BitVec.toNat_setWidth_of_le (by decide)

theorem byte_zext_toNat (b : Byte) : (Byte.zext b).toNat = b.toNat :=
  BitVec.toNat_setWidth_of_le (by decide)

/-- Settles O23: a 12-bit address keeps its value as a word. -/
theorem jumpSetsPc : Obligations.JumpSetsPc := by
  unfold Obligations.JumpSetsPc
  intro s nnn
  exact ⟨_, rfl, addr12_zext_toNat nnn, rfl, unchangedBut_setStatus (unchangedBut_setPc s _) _⟩

theorem addr12_add_byte_toNat (nnn : Addr12) (b : Byte) :
    (Addr12.zext nnn + Byte.zext b).toNat = (nnn.toNat + b.toNat) % 65536 := by
  rw [BitVec.toNat_add, addr12_zext_toNat, byte_zext_toNat]

/-- Settles O24: the sum of JP V0 is taken on words, so it wraps at 65536. -/
theorem sysAndJumpV0 : Obligations.SysAndJumpV0 := by
  unfold Obligations.SysAndJumpV0
  constructor
  · intro s nnn
    exact ⟨_, rfl, rfl, unchangedBut_setStatus (unchangedBut_refl _ s) _⟩
  · intro s nnn
    exact ⟨_, rfl, addr12_add_byte_toNat nnn _, rfl, unchangedBut_setStatus (unchangedBut_setPc s _) _⟩

/-! ### Calls and returns -/

/-- The frame of a CALL that pushes and of a RET that pops (R122, R124). -/
theorem unchangedBut_setStack_setPc (s : State) (l : List Word) (a : Word) :
    unchangedBut (fun p => p = .pc ∨ p = .stack) s ((s.setStack l).setPc a) := by
  intro p hp
  cases p with
  | pc => exact absurd (.inl rfl) hp
  | stack => exact absurd (.inr rfl) hp
  | _ => rfl

theorem unchangedBut_setPc_setFault (s : State) (a : Word) (r : FaultRecord) :
    unchangedBut (fun p => p = .pc ∨ p = .fault) s ((s.setPc a).setFault r) := by
  intro p hp
  cases p with
  | pc => exact absurd (.inl rfl) hp
  | fault => exact absurd (.inr rfl) hp
  | _ => rfl

/-- A fault raised in a body: PC goes back to the instruction, the record is made, nothing else changes (R106, R231). -/
theorem raise_outcome (k : FaultKind) (i : Instr) (e : Option Nat) (s : State) :
    ∃ t, raise k i e s = .next t ∧ t.pc = s.pc - 2 ∧ t.fault = some ⟨k, s.pc - 2, some (encode i), e⟩ ∧
      unchangedBut (fun p => p = .pc ∨ p = .fault) s t :=
  ⟨_, rfl, rfl, rfl, unchangedBut_setStatus (unchangedBut_setPc_setFault s _ _) _⟩

theorem exec_call_of_lt {s : State} (h : s.stack.length < 16) (nnn : Addr12) :
    exec (.call nnn) s = finish ((s.setStack (s.pc :: s.stack)).setPc (Addr12.zext nnn)) := by
  obtain ⟨hfull, -⟩ | ⟨-, hexec⟩ := execCall_cases s nnn
  · exact absurd h hfull.not_gt
  · exact hexec

theorem exec_call_of_ge {s : State} (h : 16 ≤ s.stack.length) (nnn : Addr12) :
    exec (.call nnn) s = raise .stackOverflow (.call nnn) none s := by
  obtain ⟨-, hexec⟩ | ⟨hroom, -⟩ := execCall_cases s nnn
  · exact hexec
  · exact absurd h hroom.not_ge

theorem exec_ret_of_cons {s : State} {a : Word} {l : List Word} (h : s.stack = a :: l) :
    exec .ret s = finish ((s.setStack l).setPc a) := by
  obtain ⟨hnil, -⟩ | ⟨b, m, hcons, hexec⟩ := execRet_cases s
  · cases hnil.symm.trans h
  · cases hcons.symm.trans h
    exact hexec

theorem exec_ret_of_nil {s : State} (h : s.stack = []) : exec .ret s = raise .stackUnderflow .ret none s := by
  obtain ⟨-, hexec⟩ | ⟨a, l, hcons, -⟩ := execRet_cases s
  · exact hexec
  · cases hcons.symm.trans h

/-- Settles O25: the number of entries selects which of the two outcomes of CALL it is. -/
theorem callPushesOrOverflows : Obligations.CallPushesOrOverflows := by
  unfold Obligations.CallPushesOrOverflows
  intro s nnn
  constructor
  · intro hlt
    exact ⟨_, exec_call_of_lt hlt nnn, rfl, addr12_zext_toNat nnn, rfl,
      unchangedBut_setStatus (unchangedBut_setStack_setPc s _ _) _⟩
  · intro hge
    rw [exec_call_of_ge hge nnn]
    exact raise_outcome _ _ _ s

/-- Settles O26: the stack selects which of the two outcomes of RET it is. -/
theorem returnPopsOrUnderflows : Obligations.ReturnPopsOrUnderflows := by
  unfold Obligations.ReturnPopsOrUnderflows
  constructor
  · intro s a l hcons
    exact ⟨_, exec_ret_of_cons hcons, rfl, rfl, rfl, unchangedBut_setStatus (unchangedBut_setStack_setPc s _ _) _⟩
  · intro s hnil
    rw [exec_ret_of_nil hnil]
    exact raise_outcome _ _ _ s

/-- Settles O27: the stack a CALL left is its return address on the stack before it, and RET takes it apart. -/
theorem returnUndoesCall : Obligations.ReturnUndoesCall := by
  unfold Obligations.ReturnUndoesCall
  intro s t u nnn hlt hcall hu
  cases (exec_call_of_lt hlt nnn).symm.trans hcall
  have hstack : u.stack = s.pc :: s.stack := hu
  exact ⟨_, exec_ret_of_cons hstack, rfl, rfl, rfl⟩

/-! ### Skips -/

theorem unchangedBut_skipIf (c : Bool) (s : State) : unchangedBut (fun p => p = .pc) s (skipIf c s) := by
  rw [skipIf_eq]
  exact unchangedBut_setPc s _

theorem skipIf_pc_toNat (c : Bool) (s : State) :
    (skipIf c s).pc.toNat = if c then (s.pc.toNat + 2) % 65536 else s.pc.toNat := by
  cases c
  · rfl
  · exact nextPc_toNat s.pc

/-- A body that skips on `c` adds 2 to PC exactly when the condition that `c` decides holds, and changes nothing else
(R120). -/
theorem exec_skips {i : Instr} {s : State} {c : Bool} {P : Prop} [Decidable P] (h : exec i s = finish (skipIf c s))
    (hc : c = true ↔ P) :
    ∃ t, exec i s = .next t ∧ t.status = some .ok ∧ unchangedBut (fun p => p = .pc) s t ∧
      t.pc.toNat = if P then (s.pc.toNat + 2) % 65536 else s.pc.toNat :=
  ⟨_, h, rfl, unchangedBut_setStatus (unchangedBut_skipIf c s) _, (skipIf_pc_toNat c s).trans (if_congr hc rfl rfl)⟩

theorem beq_iff_toNat_eq (a b : Byte) : (a == b) = true ↔ a.toNat = b.toNat :=
  beq_iff_eq.trans BitVec.toNat_inj.symm

theorem bne_iff_toNat_ne (a b : Byte) : (a != b) = true ↔ ¬ a.toNat = b.toNat :=
  bne_iff_ne.trans BitVec.toNat_inj.not.symm

/-- Settles O28: SE skips on equal bytes and SNE on different ones. -/
theorem compareSkips : Obligations.CompareSkips := by
  unfold Obligations.CompareSkips
  refine ⟨fun s x nn => ?_, fun s x nn => ?_, fun s x y => ?_, fun s x y => ?_⟩
  · exact exec_skips rfl (beq_iff_toNat_eq (s.getV x) nn)
  · simpa only [ite_not] using exec_skips (i := .sneImm x nn) rfl (bne_iff_toNat_ne (s.getV x) nn)
  · exact exec_skips rfl (beq_iff_toNat_eq (s.getV x) (s.getV y))
  · simpa only [ite_not] using exec_skips (i := .sneReg x y) rfl (bne_iff_toNat_ne (s.getV x) (s.getV y))

end Sys2Proof.Machine
end

section
/-! PROOF. The load, arithmetic, logic, shift and random instructions of 42_load_arith.md: O29 to O36. Those without a
flag write one register, the others a result and then VF; what is left for each is the value written. -/

namespace Sys2Proof.Machine

/-! ### Instructions that write one register -/

/-- A write of a register keeps a frame that names the register. -/
theorem unchangedBut_setV {changed : Part → Prop} {s u : State} {x : Reg} (h : unchangedBut changed s u)
    (hx : changed (.v x)) (b : Byte) : unchangedBut changed s (u.setV x b) := by
  intro p hp
  have hsame := h p hp
  cases p with
  | v r => exact (getV_setV_ne u x r b fun he => hp (he ▸ hx)).trans hsame
  | _ => exact hsame

/-- A free value drawn keeps a frame that names the counter (log 4). -/
theorem unchangedBut_countDraw {changed : Part → Prop} {s u : State} (h : unchangedBut changed s u)
    (hd : changed .draws) : unchangedBut changed s u.countDraw := by
  intro p hp
  have hsame := h p hp
  cases p with
  | draws => exact absurd hd hp
  | _ => exact hsame

/-- A body that writes one register and ends normally. -/
theorem exec_setsV {i : Instr} {s : State} {x : Reg} {b : Byte} (h : exec i s = finish (s.setV x b)) :
    ∃ t, exec i s = .next t ∧ t.getV x = b ∧ t.status = some .ok ∧ unchangedBut (fun p => p = .v x) s t := by
  have hframe : unchangedBut (fun p => p = .v x) s (s.setV x b) :=
    unchangedBut_setV (unchangedBut_refl (· = .v x) s) rfl b
  exact ⟨_, h, getV_setV_same s x b, rfl, unchangedBut_setStatus hframe _⟩

/-- A body that writes one register with a free value and ends normally (log 4). -/
theorem exec_drawsV {i : Instr} {s : State} {x : Reg} {b : Byte} (h : exec i s = finish (s.setV x b).countDraw) :
    ∃ t, exec i s = .next t ∧ t.getV x = b ∧ t.draws = s.draws + 1 ∧ t.status = some .ok ∧
      unchangedBut (fun p => p = .v x ∨ p = .draws) s t := by
  have hframe : unchangedBut (fun p => p = .v x ∨ p = .draws) s (s.setV x b).countDraw :=
    unchangedBut_countDraw (unchangedBut_setV (unchangedBut_refl _ s) (.inl rfl) b) (.inr rfl)
  exact ⟨_, h, getV_setV_same s x b, rfl, rfl, unchangedBut_setStatus hframe _⟩

/-- Settles O29: both write one register, and its value is the operand. -/
theorem loadsSetTheRegister : Obligations.LoadsSetTheRegister := by
  unfold Obligations.LoadsSetTheRegister
  exact ⟨fun _ _ _ => exec_setsV rfl, fun _ _ _ => exec_setsV rfl⟩

/-- Settles O30: the sum is taken on bytes, and VF is written only as the destination. -/
theorem addImmediateWrapsWithoutFlag : Obligations.AddImmediateWrapsWithoutFlag := by
  unfold Obligations.AddImmediateWrapsWithoutFlag
  intro s x nn
  obtain ⟨t, hexec, hx, hrest⟩ := exec_setsV (i := .addImm x nn) (s := s) rfl
  exact ⟨t, hexec, by rw [hx, BitVec.toNat_add], hrest⟩

/-- Settles O31: each bit of the value written is the operation on the two bits. -/
theorem bitwiseWithoutFlag : Obligations.BitwiseWithoutFlag := by
  unfold Obligations.BitwiseWithoutFlag
  intro s x y
  refine ⟨?or, ?and, ?xor⟩
  case or =>
    obtain ⟨t, hexec, hx, hok, hframe⟩ := exec_setsV (i := .orReg x y) (s := s) rfl
    exact ⟨t, hexec, hok, hframe, fun j _ => by rw [hx, BitVec.getLsbD_or]⟩
  case and =>
    obtain ⟨t, hexec, hx, hok, hframe⟩ := exec_setsV (i := .andReg x y) (s := s) rfl
    exact ⟨t, hexec, hok, hframe, fun j _ => by rw [hx, BitVec.getLsbD_and]⟩
  case xor =>
    obtain ⟨t, hexec, hx, hok, hframe⟩ := exec_setsV (i := .xorReg x y) (s := s) rfl
    exact ⟨t, hexec, hok, hframe, fun j _ => by rw [hx, BitVec.getLsbD_xor]⟩

/-- Settles O36: the value written is the draw that the counter names ANDed with the mask, whatever the draw is. -/
theorem randomIsMaskedFreshDraw : Obligations.RandomIsMaskedFreshDraw := by
  unfold Obligations.RandomIsMaskedFreshDraw
  intro s x nn
  obtain ⟨t, hexec, hx, hdraws, hrest⟩ := exec_drawsV (i := .rnd x nn) (s := s) rfl
  refine ⟨t, hexec, hdraws, fun j _ => ?_, ?_, hrest⟩
  · rw [hx, BitVec.getLsbD_and]
  · rw [hx, BitVec.toNat_and]
    exact Nat.and_le_right

/-! ### Instructions that write a result and a flag -/

/-- A body that writes a result and then a flag, and ends normally: with x = F, VF holds the flag (R23). -/
theorem exec_setsResultAndFlag {i : Instr} {s : State} {x : Reg} {result flag : Byte}
    (h : exec i s = finish (writeResultAndFlag x result flag s)) :
    ∃ t, exec i s = .next t ∧ (x ≠ 15 → t.getV x = result) ∧ t.getV 15 = flag ∧ t.status = some .ok ∧
      unchangedBut (fun p => p = .v x ∨ p = .v 15) s t := by
  have hframe : unchangedBut (fun p => p = .v x ∨ p = .v 15) s (writeResultAndFlag x result flag s) :=
    unchangedBut_setV (unchangedBut_setV (unchangedBut_refl _ s) (.inl rfl) result) (.inr rfl) flag
  refine ⟨_, h, fun hx => ?_, getV_setV_same _ vF flag, rfl, unchangedBut_setStatus hframe _⟩
  exact (getV_setV_ne _ vF x flag hx).trans (getV_setV_same s x result)

theorem flagByte_toNat (c : Bool) : (flagByte c).toNat = c.toNat := by
  cases c <;> rfl

theorem flagByte_decide_toNat (P : Prop) [Decidable P] : (flagByte (decide P)).toNat = if P then 1 else 0 := by
  simp only [flagByte, decide_eq_true_eq]
  exact apply_ite BitVec.toNat P 1 0

/-- The difference of two bytes is the difference of their numbers mod 256 (R148, R150). -/
theorem byte_sub_toNat (a b : Byte) : ((a - b).toNat : Int) = ((a.toNat : Int) - b.toNat) % 256 := by
  have ha := a.isLt
  have hb := b.isLt
  rw [BitVec.toNat_sub]
  omega

/-- Settles O32: the sum is taken on bytes, the carry on numbers. -/
theorem addSetsCarry : Obligations.AddSetsCarry := by
  unfold Obligations.AddSetsCarry
  intro s x y
  obtain ⟨t, hexec, hx, hflag, hrest⟩ := exec_setsResultAndFlag (i := .addReg x y) (s := s) rfl
  refine ⟨t, hexec, fun hne => ?_, ?_, hrest⟩
  · rw [hx hne, BitVec.toNat_add]
  · rw [hflag, carryFlag, flagByte_decide_toNat]

/-- Settles O33: the difference Vx - Vy, and the comparison that says there is no borrow. -/
theorem subSetsNoBorrow : Obligations.SubSetsNoBorrow := by
  unfold Obligations.SubSetsNoBorrow
  intro s x y
  obtain ⟨t, hexec, hx, hflag, hrest⟩ := exec_setsResultAndFlag (i := .sub x y) (s := s) rfl
  refine ⟨t, hexec, fun hne => ?_, ?_, hrest⟩
  · rw [hx hne, byte_sub_toNat]
  · rw [hflag, noBorrowFlag, flagByte_decide_toNat]

/-- Settles O34: SUB with the operands exchanged. -/
theorem subnSetsNoBorrow : Obligations.SubnSetsNoBorrow := by
  unfold Obligations.SubnSetsNoBorrow
  intro s x y
  obtain ⟨t, hexec, hx, hflag, hrest⟩ := exec_setsResultAndFlag (i := .subn x y) (s := s) rfl
  refine ⟨t, hexec, fun hne => ?_, ?_, hrest⟩
  · rw [hx hne, byte_sub_toNat]
  · rw [hflag, noBorrowFlag, flagByte_decide_toNat]

/-! ### Shifts -/

theorem shiftOperand_eq_getV {s : State} {x y src : Reg} (hvx : s.params.shiftSource = .vx → src = x)
    (hvy : s.params.shiftSource = .vy → src = y) : shiftOperand x y s = s.getV src := by
  unfold shiftOperand
  split
  · next h => rw [hvx h]
  · next h => rw [hvy h]

theorem byte_shiftRight_one_toNat (b : Byte) : (b >>> 1).toNat = b.toNat / 2 := by
  rw [BitVec.toNat_ushiftRight, Nat.shiftRight_one]

theorem byte_shiftLeft_one_toNat (b : Byte) : (b <<< 1).toNat = b.toNat * 2 % 256 := by
  rw [BitVec.toNat_shiftLeft, Nat.shiftLeft_eq]

/-- The bit a right shift loses is the remainder (R149). -/
theorem shiftedOutRight_toNat (b : Byte) : (shiftedOutRight b).toNat = b.toNat % 2 := by
  rw [shiftedOutRight, flagByte_toNat, ← BitVec.testBit_toNat, Nat.toNat_testBit, Nat.pow_zero, Nat.div_one]

/-- The bit a left shift loses is the overflow past 255 (R151). -/
theorem shiftedOutLeft_toNat (b : Byte) : (shiftedOutLeft b).toNat = b.toNat / 128 := by
  have hb := b.isLt
  rw [shiftedOutLeft, flagByte_toNat, ← BitVec.testBit_toNat, Nat.toNat_testBit]
  omega

/-- Settles O35: the operand is the register that SHIFT_SOURCE names, and the flag is the bit the shift loses. -/
theorem shiftsSetShiftedOutBit : Obligations.ShiftsSetShiftedOutBit := by
  unfold Obligations.ShiftsSetShiftedOutBit
  intro s x y src hvx hvy
  rw [← shiftOperand_eq_getV hvx hvy]
  constructor
  · obtain ⟨t, hexec, hx, hflag, hrest⟩ := exec_setsResultAndFlag (i := .shr x y) (s := s) rfl
    refine ⟨t, hexec, fun hne => ?_, ?_, hrest⟩
    · rw [hx hne, byte_shiftRight_one_toNat]
    · rw [hflag, shiftedOutRight_toNat]
  · obtain ⟨t, hexec, hx, hflag, hrest⟩ := exec_setsResultAndFlag (i := .shl x y) (s := s) rfl
    refine ⟨t, hexec, fun hne => ?_, ?_, hrest⟩
    · rw [hx hne, byte_shiftLeft_one_toNat]
    · rw [hflag, shiftedOutLeft_toNat]

end Sys2Proof.Machine
end

section
/-! PROOF. The memory and index instructions of 43_memory_index.md: the three that set I, the stores and loads at I, and
the fault of a transfer that leaves memory: O37 to O43. -/

namespace Sys2Proof.Machine

/-! ### Instructions that set I -/

/-- A write of I keeps a frame that names it. -/
theorem unchangedBut_setI {changed : Part → Prop} {s u : State} (h : unchangedBut changed s u) (hi : changed .i)
    (a : Word) : unchangedBut changed s (u.setI a) := by
  intro p hp
  have hsame := h p hp
  cases p with
  | i => exact absurd hi hp
  | _ => exact hsame

/-- A body that writes I and ends normally. -/
theorem exec_setsI {i : Instr} {s : State} {a : Word} (h : exec i s = finish (s.setI a)) :
    ∃ t, exec i s = .next t ∧ t.i = a ∧ t.status = some .ok ∧ unchangedBut (fun p => p = .i) s t :=
  ⟨_, h, rfl, rfl, unchangedBut_setStatus (unchangedBut_setI (unchangedBut_refl (· = .i) s) rfl a) _⟩

/-- The font ends below 0x200, so no glyph address wraps (R8, R172). -/
theorem glyphAddr_toNat {p : Params} (hp : p.wf) (b : Byte) :
    (glyphAddr p b).toNat = p.fontBase + 5 * (b.toNat % 16) := by
  rw [glyphAddr, BitVec.toNat_ofNat]
  simp only [Params.wf, progStart] at hp
  omega

/-- Settles O37: a 12-bit address keeps its value as a word. -/
theorem loadIndexSetsI : Obligations.LoadIndexSetsI := by
  unfold Obligations.LoadIndexSetsI
  intro s nnn
  obtain ⟨t, hexec, hi, hrest⟩ := exec_setsI (i := .ldI nnn) (s := s) rfl
  exact ⟨t, hexec, by rw [hi, addr12_zext_toNat], hrest⟩

/-- Settles O38: the sum is taken on words, and a glyph address fits in one. -/
theorem addIndexAndFontAddress : Obligations.AddIndexAndFontAddress := by
  unfold Obligations.AddIndexAndFontAddress
  constructor
  · intro s x
    obtain ⟨t, hexec, hi, hrest⟩ := exec_setsI (i := .addI x) (s := s) rfl
    exact ⟨t, hexec, by rw [hi, BitVec.toNat_add, byte_zext_toNat], hrest⟩
  · intro s x hp
    obtain ⟨t, hexec, hi, hrest⟩ := exec_setsI (i := .ldF x) (s := s) rfl
    exact ⟨t, hexec, by rw [hi, glyphAddr_toNat hp], hrest⟩

/-! ### I after a bulk transfer -/

section
variable {s u : State} (x : Reg)

theorem advanceI_i_of_false (h : s.params.ldregIncrementsI = false) : (advanceI x s).i = s.i := by
  rw [advanceI_eq, h]
  rfl

theorem advanceI_i_toNat_of_true (h : s.params.ldregIncrementsI = true) :
    (advanceI x s).i.toNat = (s.i.toNat + x.val + 1) % 65536 := by
  rw [advanceI_eq, setI_i, if_pos h, BitVec.toNat_add, BitVec.toNat_ofNat]
  omega

theorem getV_advanceI (k : Reg) : (advanceI x s).getV k = s.getV k := by
  rw [advanceI_eq, getV_setI]

theorem byteAt_advanceI (c : Nat) : (advanceI x s).byteAt c = s.byteAt c := by
  rw [advanceI_eq]
  rfl

theorem unchangedBut_advanceI {changed : Part → Prop} (h : unchangedBut changed s u) (hi : changed .i) :
    unchangedBut changed s (advanceI x u) := by
  rw [advanceI_eq]
  exact unchangedBut_setI h hi _

end

/-! ### Stores at I -/

/-- Every address of a transfer in reach names a cell (R52). -/
theorem resolveAddr_of_inReach {s : State} {a n k : Nat} (h : s.inReach a n) (hk : k < n) :
    resolveAddr s.params (a + k) = .ok ((a + k) % memSize) :=
  resolveAddr_reach _ _ (h.imp_right fun hle => (Nat.add_lt_add_left hk a).trans_le hle)

/-- A store in reach changes the memory only: byte `k` stands in the cell that `a + k` names, and every byte that none
of the addresses names is unchanged (R53, R58). -/
theorem storeBytes_setMem {s : State} {a : Nat} {bs : List Byte} (hw : Memory.wf s.params s.mem)
    (hlen : bs.length ≤ 4096) (hreach : s.inReach a bs.length) :
    ∃ m, storeBytes a bs s = .ok (s.setMem m) ∧
      (∀ k (hk : k < bs.length) c, resolveAddr s.params (a + k) = .ok c → (s.setMem m).byteAt c = bs[k]) ∧
      (∀ c, (∀ k < bs.length, resolveAddr s.params (a + k) ≠ .ok c) → Memory.read s.params m c = s.byteAt c) := by
  obtain ⟨u, hstore⟩ := storeBytes_reach bs a s hreach
  obtain ⟨hu, -⟩ := storeBytes_ok bs a s u hstore
  obtain ⟨hnew, hold⟩ := storeBytes_read bs a s u hw.1 hlen hstore
  refine ⟨u.mem, hu ▸ hstore, fun k hk c hc => ?_, fun c hc => hold c fun k hk he => ?_⟩
  · rw [resolveAddr_ok _ _ _ hc]
    exact hnew k hk
  · exact hc k hk (he ▸ resolveAddr_of_inReach hreach hk)

/-- FX33 in reach ends normally with the memory of the store (R173). -/
theorem exec_ldB_of_store {s u : State} {x : Reg} (h : storeBytes (baseAddr s) (bcdDigits (s.getV x)) s = .ok u) :
    exec (.ldB x) s = finish u := by
  obtain ⟨u', hu, hexec⟩ | ⟨e, he, -⟩ := execLdB_cases s x
  · cases hu.symm.trans h
    exact hexec
  · cases he.symm.trans h

/-- FX55 in reach ends normally with the memory of the store (R174). -/
theorem exec_ldStore_of_store {s u : State} {x : Reg} (h : storeBytes (baseAddr s) (s.firstVs x) s = .ok u) :
    exec (.ldStore x) s = finish (advanceI x u) := by
  obtain ⟨u', hu, hexec⟩ | ⟨e, he, -⟩ := execLdStore_cases s x
  · cases hu.symm.trans h
    exact hexec
  · cases he.symm.trans h

/-- A number up to that of a byte keeps its value as a byte. -/
theorem byte_ofNat_toNat {n : Nat} {b : Byte} (h : n ≤ b.toNat) : (BitVec.ofNat 8 n).toNat = n := by
  rw [BitVec.toNat_ofNat, Nat.mod_eq_of_lt (h.trans_lt b.isLt)]

/-- The numbers of the three digits of a byte (R173). -/
theorem bcdDigits_toNat (b : Byte) : ∀ k (hk : k < 3),
    ((bcdDigits b)[k]'hk).toNat = [b.toNat / 100, b.toNat / 10 % 10, b.toNat % 10][k]
  | 0, _ => byte_ofNat_toNat (Nat.div_le_self _ _)
  | 1, _ => byte_ofNat_toNat ((Nat.mod_le _ _).trans (Nat.div_le_self _ _))
  | 2, _ => byte_ofNat_toNat (Nat.mod_le _ _)

/-- FX33 in reach stores the three digits at I, I + 1, I + 2 and changes nothing else (R173). -/
theorem ldB_outcome {s : State} (x : Reg) (hw : Memory.wf s.params s.mem) (hreach : s.inReach (baseAddr s) 3) :
    ∃ t, exec (.ldB x) s = .next t ∧ t.status = some .ok ∧
      (∀ k (hk : k < 3) c, resolveAddr s.params (baseAddr s + k) = .ok c →
        (t.byteAt c).toNat = [(s.getV x).toNat / 100, (s.getV x).toNat / 10 % 10, (s.getV x).toNat % 10][k]) ∧
      unchangedBut (fun p => ∃ k < 3, ∃ c, resolveAddr s.params (baseAddr s + k) = .ok c ∧ p = .byte c) s t := by
  have hlength : (bcdDigits (s.getV x)).length = 3 := rfl
  obtain ⟨m, hstore, hnew, hold⟩ := storeBytes_setMem hw (hlength.trans_le (by decide)) hreach
  refine ⟨_, exec_ldB_of_store hstore, rfl, fun k hk c hc => ?_,
    unchangedBut_setStatus (unchangedBut_setMem fun c hc => ?_) _⟩
  · exact (congrArg BitVec.toNat (hnew k hk c hc)).trans (bcdDigits_toNat _ k hk)
  · exact hold c fun k hk he => hc ⟨k, hk, c, he, rfl⟩

/-- Settles O39: each byte stored is a digit, and a number is the sum of its digits by place. -/
theorem bcdDigitsReconstruct : Obligations.BcdDigitsReconstruct := by
  unfold Obligations.BcdDigitsReconstruct
  intro s x hw hreach
  obtain ⟨t, hexec, hok, hdigit, hframe⟩ := ldB_outcome x hw hreach
  have hundreds := hdigit 0 (by decide)
  have htens := hdigit 1 (by decide)
  have hunits := hdigit 2 (by decide)
  simp only [List.getElem_cons_zero, List.getElem_cons_succ, Nat.add_zero] at hundreds htens hunits
  refine ⟨t, hexec, hok, hundreds, htens, hunits, fun c0 c1 c2 hc0 hc1 hc2 => ?_, hframe⟩
  rw [hundreds c0 hc0, htens c1 hc1, hunits c2 hc2]
  omega

/-- Settles O40: the store of the list V0..Vx, and then I. -/
theorem bulkStoreWritesV0ToVx : Obligations.BulkStoreWritesV0ToVx := by
  unfold Obligations.BulkStoreWritesV0ToVx
  intro s x hw hreach
  have hlength : (s.firstVs x).length = x.val + 1 := firstVs_length s x
  obtain ⟨m, hstore, hnew, hold⟩ := storeBytes_setMem (bs := s.firstVs x) hw
    (hlength.trans_le (x.isLt.trans (by decide))) (hlength.symm ▸ hreach)
  refine ⟨_, exec_ldStore_of_store hstore, rfl, fun k c hk hc => ?_, advanceI_i_of_false x (s := s.setMem m),
    advanceI_i_toNat_of_true x (s := s.setMem m), unchangedBut_setStatus (unchangedBut_advanceI x ?_ (.inl rfl)) _⟩
  · have hkl : k.val < (s.firstVs x).length := hlength.symm ▸ Nat.lt_succ_of_le hk
    exact (byteAt_advanceI x c).trans ((hnew k.val hkl c hc).trans (firstVs_getElem s x k.val hkl))
  · refine unchangedBut_setMem fun c hc => hold c fun k hk he => ?_
    exact hc (.inr ⟨k, Nat.le_of_lt_succ (hk.trans_eq hlength), c, he, rfl⟩)

/-! ### Loads from I -/

/-- FX65 in reach ends normally with the bytes of the load (R175). -/
theorem exec_ldLoad_of_load {s : State} {x : Reg} {bs : List Byte} (h : loadBytes s (baseAddr s) (x.val + 1) = .ok bs) :
    exec (.ldLoad x) s = finish (advanceI x (setVsFrom 0 bs s)) := by
  obtain ⟨bs', hbs, hexec⟩ | ⟨e, he, -⟩ := execLdLoad_cases s x
  · cases hbs.symm.trans h
    exact hexec
  · cases he.symm.trans h

/-- A load in reach reads byte `k` from the cell that `a + k` names (R52, R58). -/
theorem loadBytes_byteAt {s : State} {a n : Nat} (hreach : s.inReach a n) :
    ∃ bs, ∃ hlength : bs.length = n, loadBytes s a n = .ok bs ∧
      ∀ k (hk : k < n) c, resolveAddr s.params (a + k) = .ok c → bs[k] = s.byteAt c := by
  refine ⟨_, by simp, loadBytes_reach s n a hreach, fun k hk c hc => ?_⟩
  rw [resolveAddr_ok _ _ _ hc, List.getElem_map, List.getElem_range]
  rfl

/-- Writing V0..Vx changes no part but these registers. -/
theorem unchangedBut_setVsFrom {changed : Part → Prop} {x : Reg} {bs : List Byte} (s : State)
    (hlength : bs.length = x.val + 1) (hv : ∀ r ≤ x, changed (.v r)) :
    unchangedBut changed s (setVsFrom 0 bs s) := by
  intro p hp
  cases p with
  | v r => exact keepsUnnamedV_setVsFrom s hlength r fun hr => hp (hv r hr)
  | _ =>
    rw [setVsFrom_eq]
    rfl

/-- Settles O41: the load of `x + 1` bytes into V0..Vx, and then I. -/
theorem bulkLoadReadsV0ToVx : Obligations.BulkLoadReadsV0ToVx := by
  unfold Obligations.BulkLoadReadsV0ToVx
  intro s x hreach
  obtain ⟨bs, hlength, hload, hbyte⟩ := loadBytes_byteAt hreach
  refine ⟨_, exec_ldLoad_of_load hload, rfl, fun k c hk hc => ?_, fun h => ?_, fun h => ?_, unchangedBut_setStatus
    (unchangedBut_advanceI x (unchangedBut_setVsFrom s hlength fun r hr => .inr ⟨r, hr, rfl⟩) (.inl rfl)) _⟩
  · have hkx : k.val < x.val + 1 := Nat.lt_succ_of_le hk
    calc (advanceI x (setVsFrom 0 bs s)).getV k
      _ = (setVsFrom 0 bs s).getV k := getV_advanceI x k
      _ = bs[k.val] := by rw [getV_setVsFrom bs 0 s k (by omega), dif_pos (by omega)]; rfl
      _ = s.byteAt c := hbyte k.val hkx c hc
  · exact (advanceI_i_of_false x (by rwa [setVsFrom_params])).trans (setVsFrom_i s 0 bs)
  · have hi := advanceI_i_toNat_of_true (s := setVsFrom 0 bs s) x (by rwa [setVsFrom_params])
    rwa [setVsFrom_i] at hi

/-- Settles O43: the load reads Vk from the cell of `I + k`, in which the store left it. -/
theorem loadRestoresStoredRegisters : Obligations.LoadRestoresStoredRegisters := by
  unfold Obligations.LoadRestoresStoredRegisters
  intro s t u x hw hreach hexec hmem hparams hi
  have hbase : baseAddr u = baseAddr s := congrArg BitVec.toNat hi
  have hreachU : u.inReach (baseAddr u) (x.val + 1) := by rwa [State.inReach, hparams, hbase]
  obtain ⟨htp, hstored⟩ := ldStore_byteAt hw hreach hexec
  obtain ⟨w, hload, -, hloaded, -⟩ := bulkLoadReadsV0ToVx u x hreachU
  refine ⟨w, hload, fun k hk => ?_⟩
  calc w.getV k
    _ = u.byteAt ((baseAddr s + k.val) % 4096) :=
      hloaded k _ hk (hbase ▸ resolveAddr_of_inReach hreachU (Nat.lt_succ_of_le hk))
    _ = t.byteAt ((baseAddr s + k.val) % 4096) := by rw [State.byteAt, State.byteAt, hparams, hmem, htp]
    _ = s.getV k := hstored k hk

/-! ### Transfers that leave memory -/

theorem firstBeyond_eq_ite (a : Nat) : firstBeyond a = if a < 4096 then 4096 else a := by
  unfold firstBeyond memSize
  split <;> omega

/-- The body of a transfer past the end under `Fault` raises the AddressingError of the first address that does not
exist: DXYN and FX65 fail in the load, FX33 and FX55 in the store (R173, R174, R175, R193, R234). -/
theorem exec_transfer_beyond {i : Instr} {s : State} (hp : s.params.addrPolicy = .fault) (hlen : transferLength i ≠ 0)
    (hout : 4096 < baseAddr s + transferLength i) :
    exec i s = raise .addressingError i (some (firstBeyond (baseAddr s))) s := by
  have hload := loadBytes_beyond s hp (transferLength i) (baseAddr s) hlen hout
  have hstore {bs : List Byte} (hbs : bs.length = transferLength i) :
      storeBytes (baseAddr s) bs s = .error (firstBeyond (baseAddr s)) :=
    storeBytes_beyond bs _ s hp (List.ne_nil_of_length_pos (hbs ▸ Nat.pos_of_ne_zero hlen)) (hbs ▸ hout)
  cases i with
  | drw x y n =>
    obtain ⟨rows, hrows, -⟩ | ⟨e, he, hexec⟩ := execDrw_cases s x y n
    · cases hrows.symm.trans hload
    · cases he.symm.trans hload
      exact hexec
  | ldB x =>
    obtain ⟨u, hu, -⟩ | ⟨e, he, hexec⟩ := execLdB_cases s x
    · cases hu.symm.trans (hstore rfl)
    · cases he.symm.trans (hstore rfl)
      exact hexec
  | ldStore x =>
    obtain ⟨u, hu, -⟩ | ⟨e, he, hexec⟩ := execLdStore_cases s x
    · cases hu.symm.trans (hstore (firstVs_length s x))
    · cases he.symm.trans (hstore (firstVs_length s x))
      exact hexec
  | ldLoad x =>
    obtain ⟨bs, hbs, -⟩ | ⟨e, he, hexec⟩ := execLdLoad_cases s x
    · cases hbs.symm.trans hload
    · cases he.symm.trans hload
      exact hexec
  | _ => exact absurd rfl hlen

/-- Settles O42: the body raises the fault, and a raised fault makes the record and changes nothing else. -/
theorem transferPastMemoryFaults : Obligations.TransferPastMemoryFaults := by
  unfold Obligations.TransferPastMemoryFaults
  intro s i hp hlen hout
  rw [exec_transfer_beyond hp hlen hout, ← firstBeyond_eq_ite]
  exact raise_outcome _ _ _ s

end Sys2Proof.Machine
end

section
/-! PROOF. The display instructions of 44_display.md: CLS, and DXYN by one lemma that says what a draw leaves, from
which its three statements follow: O45 to O48. -/

namespace Sys2Proof.Machine

/-! ### CLS -/

/-- A write of the display buffer keeps a frame that names every pixel. -/
theorem unchangedBut_setFb {changed : Part → Prop} {s u : State} (h : unchangedBut changed s u)
    (hpixel : ∀ x y, changed (.pixel x y)) (f : FrameBuffer) : unchangedBut changed s (u.setFb f) := by
  intro p hp
  have hsame := h p hp
  cases p with
  | pixel x y => exact absurd (hpixel x y) hp
  | _ => exact hsame

/-- Settles O45: CLS replaces the buffer by the blank one and writes nothing else. -/
theorem clearTurnsEveryPixelOff : Obligations.ClearTurnsEveryPixelOff := by
  unfold Obligations.ClearTurnsEveryPixelOff
  intro s
  refine ⟨_, rfl, fun x y _ _ => pixel_blank x y, rfl, ?_⟩
  exact unchangedBut_setStatus (unchangedBut_setFb (unchangedBut_refl _ s) (fun x y => ⟨x, y, rfl⟩) _) _

/-! ### The pixels of the buffer -/

/-- Some pixel of the buffer meets `P` exactly when some pixel meets `Q`, if the two agree on the buffer. -/
theorem exists_pixel_congr {P Q : Nat → Nat → Prop} (h : ∀ px py, px < 64 → py < 32 → (P px py ↔ Q px py)) :
    (∃ px py, px < 64 ∧ py < 32 ∧ P px py) ↔ ∃ px py, px < 64 ∧ py < 32 ∧ Q px py :=
  exists_congr fun px => exists_congr fun py => and_congr_right fun hx => and_congr_right fun hy => h px py hx hy

/-! ### The rows of a sprite -/

/-- The rows of a sprite in reach: row `r` is the byte at `I + r`. With N = 0 there are none, so nothing is read
wherever I points (R193, D11). -/
theorem loadBytes_sprite {s : State} {n : Nibble} (hreach : s.inReach (baseAddr s) n.toNat ∨ n = 0) :
    ∃ rows, ∃ hlength : rows.length = n.toNat, loadBytes s (baseAddr s) n.toNat = .ok rows ∧
      ∀ r (hr : r < n.toNat), rows[r] = s.byteAt ((baseAddr s + r) % 4096) := by
  obtain hreach | rfl := hreach
  · obtain ⟨rows, hlength, hload, hbyte⟩ := loadBytes_byteAt hreach
    exact ⟨rows, hlength, hload, fun r hr => hbyte r hr _ (resolveAddr_of_inReach hreach hr)⟩
  · exact ⟨[], rfl, rfl, fun r hr => absurd hr (Nat.not_lt_zero r)⟩

/-- The blit of the rows of a DRW flips the pixels that `covers` names (R191, R193, R194). -/
theorem spriteLit_iff_covers {s : State} {x y : Reg} {n : Nibble} {rows : List Byte} (hlength : rows.length = n.toNat)
    (hrow : ∀ r (hr : r < n.toNat), rows[r] = s.byteAt ((baseAddr s + r) % 4096)) {px py : Nat} (hx : px < 64)
    (hy : py < 32) :
    spriteLit ((s.getV x).toNat % 64) ((s.getV y).toNat % 32) rows px py = true ↔ covers s x y n px py := by
  rw [spriteLit_iff, Nat.mod_eq_of_lt hx, Nat.mod_eq_of_lt hy]
  constructor
  · rintro ⟨r, hr, c, hc, hbit, hpx, hpy⟩
    have hrn : r < n.toNat := hlength ▸ hr
    exact ⟨r, hrn, c, hc, hrow r hrn ▸ hbit, hpx, hpy⟩
  · rintro ⟨r, hr, c, hc, hbit, hpx, hpy⟩
    exact ⟨r, hlength.symm ▸ hr, c, hc, (hrow r hr).symm ▸ hbit, hpx, hpy⟩

/-! ### What a draw leaves -/

theorem exec_drw_of_load {s : State} {x y : Reg} {n : Nibble} {rows : List Byte}
    (h : loadBytes s (baseAddr s) n.toNat = .ok rows) : exec (.drw x y n) s = finish (drawAt x y rows s) := by
  obtain ⟨rows', hrows, hexec⟩ | ⟨e, he, -⟩ := execDrw_cases s x y n
  · cases hrows.symm.trans h
    exact hexec
  · cases he.symm.trans h

theorem collisionFlag_toNat_eq_one (hit : Bool) : (collisionFlag hit).toNat = 1 ↔ hit = true := by
  rw [collisionFlag, flagByte_toNat, Bool.toNat_eq_one]

theorem collisionFlag_eq_zero_or_one (hit : Bool) : collisionFlag hit = 0 ∨ collisionFlag hit = 1 := by
  cases hit
  · exact .inl rfl
  · exact .inr rfl

/-- The machine `t` is what DXYN leaves of `s` (R193, R195). -/
structure Drawn (s : State) (x y : Reg) (n : Nibble) (t : State) : Prop where
  status_ok : t.status = some .ok
  toggles : ∀ px py, px < 64 → py < 32 → covers s x y n px py → pixel t.fb px py = !pixel s.fb px py
  keeps : ∀ px py, px < 64 → py < 32 → ¬ covers s x y n px py → pixel t.fb px py = pixel s.fb px py
  flag_one_iff :
    (t.getV 15).toNat = 1 ↔ ∃ px py, px < 64 ∧ py < 32 ∧ covers s x y n px py ∧ pixel s.fb px py = true
  flag_bit : t.getV 15 = 0 ∨ t.getV 15 = 1
  frame : unchangedBut (fun p => p = .v 15 ∨ ∃ px py, p = .pixel px py) s t

section
variable (s : State) (x y : Reg) (rows : List Byte)

/-- VF holds the collision, also where X or Y is F, whose value the draw has read before (R193, R195). -/
theorem getV_drawAt_vF : (drawAt x y rows s).getV 15 =
    collisionFlag (drawSprite s.fb ((s.getV x).toNat % 64) ((s.getV y).toNat % 32) rows).2 :=
  getV_setV_same _ vF _

theorem unchangedBut_drawAt :
    unchangedBut (fun p => p = .v 15 ∨ ∃ px py, p = .pixel px py) s (drawAt x y rows s) :=
  unchangedBut_setV (unchangedBut_setFb (unchangedBut_refl _ s) (fun px py => .inr ⟨px, py, rfl⟩) _) (.inl rfl) _

end

/-- DXYN in reach ends normally with the sprite drawn, whatever X, Y and N are (R193, D11). -/
theorem exec_drw_drawn {s : State} (x y : Reg) {n : Nibble} (hreach : s.inReach (baseAddr s) n.toNat ∨ n = 0) :
    ∃ t, exec (.drw x y n) s = .next t ∧ Drawn s x y n t := by
  obtain ⟨rows, hlength, hload, hrow⟩ := loadBytes_sprite hreach
  have hrows : rows.length ≤ 32 := by have := n.isLt; omega
  have hlit := fun px py => spriteLit_iff_covers (x := x) (y := y) (px := px) (py := py) hlength hrow
  have hpixel := fun px py => pixel_drawSprite s.fb ((s.getV x).toNat % 64) ((s.getV y).toNat % 32) rows px py hrows
  have hflag := getV_drawAt_vF s x y rows
  refine ⟨_, exec_drw_of_load hload, rfl, fun px py hx hy hc => ?toggles, fun px py hx hy hc => ?keeps,
    hflag ▸ ?one, hflag ▸ collisionFlag_eq_zero_or_one _, unchangedBut_setStatus (unchangedBut_drawAt s x y rows) _⟩
  case toggles => exact (hpixel px py).trans (by rw [(hlit px py hx hy).2 hc, Bool.true_xor])
  case keeps => exact (hpixel px py).trans (by rw [Bool.eq_false_iff.2 (mt (hlit px py hx hy).1 hc), Bool.false_xor])
  case one =>
    rw [collisionFlag_toNat_eq_one, hit_drawSprite _ _ _ _ hrows]
    exact exists_pixel_congr fun px py hx hy => and_congr_left' (hlit px py hx hy)

/-! ### The statements about a draw -/

/-- Settles O46: what a draw leaves, with the flag 0 when it is not 1. -/
theorem drawTogglesCoveredPixels : Obligations.DrawTogglesCoveredPixels := by
  unfold Obligations.DrawTogglesCoveredPixels
  intro s x y n hreach
  obtain ⟨t, hexec, hdrawn⟩ := exec_drw_drawn x y hreach
  refine ⟨t, hexec, hdrawn.status_ok, hdrawn.toggles, hdrawn.keeps, hdrawn.flag_one_iff.2, fun hoff => ?_,
    hdrawn.frame⟩
  obtain hzero | hone := hdrawn.flag_bit
  · rw [hzero]
    rfl
  · obtain ⟨px, py, hx, hy, hc, hon⟩ := hdrawn.flag_one_iff.1 (by rw [hone]; rfl)
    exact absurd hon (by rw [hoff px py hx hy hc]; decide)

/-- A draw turns off the covered pixels that were on, and no other (R195). -/
theorem Drawn.turned_off_iff {s t : State} {x y : Reg} {n : Nibble} (h : Drawn s x y n t) {px py : Nat} (hx : px < 64)
    (hy : py < 32) :
    pixel s.fb px py = true ∧ pixel t.fb px py = false ↔ covers s x y n px py ∧ pixel s.fb px py = true := by
  rw [and_comm (a := covers s x y n px py)]
  refine and_congr_right fun hon => ?_
  by_cases hc : covers s x y n px py
  · simp [h.toggles px py hx hy hc, hon, hc]
  · simp [h.keeps px py hx hy hc, hon, hc]

/-- Settles O47: the flag says that a covered pixel was on, and those are the pixels turned off. -/
theorem collisionMeansPixelTurnedOff : Obligations.CollisionMeansPixelTurnedOff := by
  unfold Obligations.CollisionMeansPixelTurnedOff
  intro s x y n hreach
  obtain ⟨t, hexec, hdrawn⟩ := exec_drw_drawn x y hreach
  have hoff := exists_pixel_congr fun px py hx hy => hdrawn.turned_off_iff (px := px) (py := py) hx hy
  exact ⟨t, hexec, hdrawn.flag_one_iff.trans hoff.symm, hdrawn.flag_bit⟩

/-! ### Drawing twice -/

section
variable {s t : State} {x y : Reg} {n : Nibble}

/-- A draw that names no VF reads nothing that it writes, so a second one covers the same pixels, wherever PC is
(R198). -/
theorem Drawn.covers_again (h : Drawn s x y n t) (hx : x ≠ 15) (hy : y ≠ 15) (a : Word) (px py : Nat) :
    covers (t.setPc a) x y n px py ↔ covers s x y n px py := by
  have hi : (t.setPc a).i = s.i := h.frame .i (by simp)
  have hvx : (t.setPc a).getV x = s.getV x := h.frame (.v x) (by simpa using hx)
  have hvy : (t.setPc a).getV y = s.getV y := h.frame (.v y) (by simpa using hy)
  have hbyte : ∀ c, (t.setPc a).byteAt c = s.byteAt c := fun c => h.frame (.byte c) (by simp)
  simp only [covers, baseAddr, hi, hvx, hvy, hbyte]

theorem Drawn.inReach_again (h : Drawn s x y n t) (a : Word) (hreach : s.inReach (baseAddr s) n.toNat ∨ n = 0) :
    (t.setPc a).inReach (baseAddr (t.setPc a)) n.toNat ∨ n = 0 := by
  have hi : (t.setPc a).i = s.i := h.frame .i (by simp)
  have hparams : (t.setPc a).params = s.params := h.frame .params (by simp)
  rwa [State.inReach, baseAddr, hi, hparams]

/-- A pixel toggled twice is as before, and so is one toggled never (R198). -/
theorem Drawn.fb_again {u : State} {a : Word} (h : Drawn s x y n t) (hu : Drawn (t.setPc a) x y n u) (hx : x ≠ 15)
    (hy : y ≠ 15) : u.fb = s.fb := by
  refine frameBuffer_ext _ _ fun px py hpx hpy => ?_
  by_cases hc : covers s x y n px py
  · rw [hu.toggles px py hpx hpy ((h.covers_again hx hy a px py).2 hc), setPc_fb, h.toggles px py hpx hpy hc,
      Bool.not_not]
  · rw [hu.keeps px py hpx hpy (mt (h.covers_again hx hy a px py).1 hc), setPc_fb, h.keeps px py hpx hpy hc]

/-- The second draw meets a covered pixel on where the first met it off (R198). -/
theorem Drawn.flag_again {u : State} {a : Word} (h : Drawn s x y n t) (hu : Drawn (t.setPc a) x y n u) (hx : x ≠ 15)
    (hy : y ≠ 15) :
    (u.getV 15).toNat = 1 ↔ ∃ px py, px < 64 ∧ py < 32 ∧ covers s x y n px py ∧ pixel s.fb px py = false := by
  refine hu.flag_one_iff.trans (exists_pixel_congr fun px py hpx hpy => ?_)
  rw [h.covers_again hx hy a px py]
  refine and_congr_right fun hc => ?_
  rw [setPc_fb, h.toggles px py hpx hpy hc, Bool.not_eq_true']

end

/-- Settles O48: the second draw is one more draw in reach, from the machine that the first left. -/
theorem drawTwiceRestoresDisplay : Obligations.DrawTwiceRestoresDisplay := by
  unfold Obligations.DrawTwiceRestoresDisplay
  intro s x y n hx hy hreach
  obtain ⟨t, hexec, hdrawn⟩ := exec_drw_drawn x y hreach
  refine ⟨t, hexec, fun a => ?_⟩
  obtain ⟨u, hexec', hdrawn'⟩ := exec_drw_drawn x y (hdrawn.inReach_again a hreach)
  exact ⟨u, hexec', hdrawn.fb_again hdrawn' hx hy, hdrawn.flag_again hdrawn' hx hy⟩

end Sys2Proof.Machine
end

section
/-! PROOF. The input and timer instructions of 45_input_timers.md: the choice of a key and its table form, the key wait
in one step and over many, the key skips and the timers: O49, O50, O52, O53 and O54. -/

namespace Sys2Proof.Machine

/-! ### The choice of a key -/

theorem anyPressed_eq_none_iff (s : State) : anyPressed s = none ↔ ∀ k : Key, s.keys[k] = false := by
  simpa only [keyPressed_val] using anyPressed_none s

theorem keys_of_anyPressed {s : State} {j : Key} (h : anyPressed s = some j) : s.keys[j] = true :=
  (keyPressed_val s.keys j).symm.trans (anyPressed_some s j h)

theorem anyPressed_lowest {s : State} (h : s.params.keySelect = .lowest) :
    anyPressed s = (pressedKeys s.keys).head? := by
  rw [anyPressed, h]

theorem anyPressed_table {s : State} {rows : List (Vector Bool 16 × Key)} (h : s.params.keySelect = .table rows) :
    anyPressed s = tableChoice rows s.keys := by
  rw [anyPressed, h]

/-- The reference choice is below every pressed key (R216). -/
theorem le_of_anyPressed_lowest {s : State} {j k : Key} (hlow : s.params.keySelect = .lowest)
    (hj : anyPressed s = some j) (hk : s.keys[k] = true) : j ≤ k := by
  rw [anyPressed_lowest hlow] at hj
  exact (head?_pressedKeys_some s.keys j hj).2 k ((keyPressed_val s.keys k).trans hk)

/-! ### The table of a choice -/

/-- A table answers the pressed key of the only row it has for the flags (R216). -/
theorem tableChoice_eq_some {rows : List (Vector Bool 16 × Key)} {keys : Vector Bool 16} {j : Key}
    (hrow : (keys, j) ∈ rows) (hj : keyPressed keys j.val = true) (honly : ∀ k, (keys, k) ∈ rows → k = j) :
    tableChoice rows keys = some j := by
  unfold tableChoice
  split
  · next r hfind =>
    have hmatch := List.find?_some hfind
    rw [Bool.and_eq_true] at hmatch
    have hkeys : r.1 = keys := of_decide_eq_true hmatch.1
    exact congrArg some (honly r.2 (hkeys ▸ List.mem_of_find?_eq_some hfind))
  · next hfind =>
    have hmiss := List.find?_eq_none.1 hfind (keys, j) hrow
    simp [hj] at hmiss

/-- Every value of `n` key flags. -/
def allFlags : (n : Nat) → List (Vector Bool n)
  | 0 => [#v[]]
  | n + 1 => (allFlags n).flatMap fun keys => [keys.push false, keys.push true]

theorem mem_allFlags {n : Nat} (keys : Vector Bool n) : keys ∈ allFlags n := by
  induction n with
  | zero => exact List.mem_singleton.2 Vector.eq_empty
  | succ n ih =>
    refine List.mem_flatMap.2 ⟨keys.pop, ih keys.pop, ?_⟩
    rw [← Vector.push_pop_back keys]
    cases keys.back <;> simp

/-- The table of a choice: a row for each of the flags that it answers with a key (R216, log 5). -/
def choiceTable (f : Vector Bool 16 → Option Key) : List (Vector Bool 16 × Key) :=
  (allFlags 16).filterMap fun keys => (f keys).map fun j => (keys, j)

theorem mem_choiceTable (f : Vector Bool 16 → Option Key) (keys : Vector Bool 16) (j : Key) :
    (keys, j) ∈ choiceTable f ↔ f keys = some j := by
  simp [choiceTable, mem_allFlags]

/-- Settles O54: the table of the choice has exactly one row for flags with a pressed key, and none for the others. -/
theorem tableExpressesEveryKeySelect : Obligations.TableExpressesEveryKeySelect := by
  unfold Obligations.TableExpressesEveryKeySelect
  intro f hnone hsome
  refine ⟨choiceTable f, fun s hs => ?_⟩
  cases hf : f s.keys with
  | none => exact (anyPressed_eq_none_iff s).2 ((hnone s.keys).1 hf)
  | some j =>
    rw [anyPressed_table hs]
    refine tableChoice_eq_some ((mem_choiceTable f s.keys j).2 hf) ?pressed fun k hk => ?only
    case pressed => exact (keyPressed_val s.keys j).trans (hsome s.keys j hf)
    case only => exact Option.some.inj (((mem_choiceTable f s.keys k).1 hk).symm.trans hf)

/-! ### The key wait -/

/-- A write of the mode keeps a frame that names it. -/
theorem unchangedBut_setMode {changed : Part → Prop} {s u : State} (h : unchangedBut changed s u)
    (hm : changed .mode) (m : Mode) : unchangedBut changed s (u.setMode m) := by
  intro p hp
  have hsame := h p hp
  cases p with
  | mode => exact absurd hm hp
  | _ => exact hsame

/-- FX0A with no key pressed waits at its own address (R213). -/
theorem exec_ldVxK_of_released {s : State} (hkeys : ∀ k : Key, s.keys[k] = false) (x : Reg) :
    exec (.ldVxK x) s = block ((s.setPc (instrPc s.pc)).setMode (.awaitingKey x)) := by
  have hnone := (anyPressed_eq_none_iff s).2 hkeys
  obtain ⟨j, hj, -⟩ | ⟨-, h⟩ := execLdVxK_cases s x
  · exact nomatch hnone.symm.trans hj
  · exact h

/-- FX0A with a key pressed takes the one that `KEY_SELECT` answers (R213, R216). -/
theorem exec_ldVxK_of_pressed {s : State} {k : Key} (hk : s.keys[k] = true) (x : Reg) :
    ∃ j, anyPressed s = some j ∧ exec (.ldVxK x) s = finish (s.setV x (keyCode j)).countDraw := by
  obtain h | ⟨hnone, -⟩ := execLdVxK_cases s x
  · exact h
  · exact nomatch hk.symm.trans ((anyPressed_eq_none_iff s).1 hnone k)

/-- Settles O50: the two outcomes of FX0A, by whether some key is pressed. -/
theorem keyWaitTakesKeyOrBlocks : Obligations.KeyWaitTakesKeyOrBlocks := by
  unfold Obligations.KeyWaitTakesKeyOrBlocks
  intro s x
  constructor
  · rintro ⟨k, hk⟩
    obtain ⟨j, hj, h⟩ := exec_ldVxK_of_pressed hk x
    obtain ⟨t, hexec, hx, -, hok, hframe⟩ := exec_drawsV h
    exact ⟨t, j, hexec, keys_of_anyPressed hj, by rw [hx, keyCode_toNat],
      fun hlow _ => le_of_anyPressed_lowest hlow hj, hok, hframe⟩
  · intro hkeys
    have hpc : unchangedBut (fun p => p = .pc ∨ p = .mode) s (s.setPc (instrPc s.pc)) :=
      fun p hp => unchangedBut_setPc s _ p fun he => hp (.inl he)
    exact ⟨_, exec_ldVxK_of_released hkeys x, rfl, rfl, rfl,
      unchangedBut_setStatus (unchangedBut_setMode hpc (.inr rfl) _) _⟩

/-! ### The key wait over many steps -/

/-- The step of a running machine at FX0A with no key pressed undoes the advance of the fetch (R213, R214). -/
theorem step_startsWait {s : State} {op : Word} {x : Reg} (hf : s.fault = none) (hm : s.mode = .running)
    (hfetch : fetch s s.pc = .ok op) (hdec : decode s.params.sysPolicy op = .ok (.ldVxK x))
    (hkeys : ∀ k : Key, s.keys[k] = false) : step s = block (s.setMode (.awaitingKey x)) := by
  have hexec := exec_ldVxK_of_released (s := s.setPc (nextPc s.pc)) hkeys x
  rw [setPc_instrPc_after_fetch] at hexec
  exact (step_of_decode_ok hf hm hfetch hdec).trans hexec

theorem core_run_succ {s t : State} (h : Sys2Proof.core.step s = .next t) (n : Nat) :
    Sys2Proof.core.run (n + 1) s = Sys2Proof.core.run n t := by
  simp only [Host.Core.run, h]

section
variable {s : State} {x : Reg} (hf : s.fault = none) (hm : s.mode = .awaitingKey x)
include hf hm

theorem step_of_waiting_released (hkeys : ∀ k : Key, s.keys[k] = false) : step s = block s := by
  rw [step_awaiting s x hf hm, keyResume, (anyPressed_eq_none_iff s).2 hkeys]

/-- A blocked wait is a fixed point of the step, so any number of steps leaves it (R214, R215). -/
theorem run_of_blocked_wait (hstatus : s.status = some .blocked) (hkeys : ∀ k : Key, s.keys[k] = false) (n : Nat) :
    Sys2Proof.core.run n s = .next s := by
  have hstep : Sys2Proof.core.step s = .next s := by
    have hsame : s.setStatus .blocked = s := by rw [State.setStatus, ← hstatus]
    exact (step_of_waiting_released hf hm hkeys).trans (congrArg Host.Outcome.next hsame)
  induction n with
  | zero => rfl
  | succ n ih => exact (core_run_succ hstep n).trans ih

/-- A wait takes the key that `set_key` marks, when no other is pressed (R214, R215). -/
theorem step_setKey_of_waiting (hkeys : ∀ j : Key, s.keys[j] = false) (k : Key) :
    ∃ u, step (s.setKey k.val true) = .next u ∧ (u.getV x).toNat = k.val ∧
      u.pc.toNat = (s.pc.toNat + 2) % 65536 ∧ u.mode = .running ∧ u.status = some .ok := by
  have hpressed : ∀ j : Key, (s.setKey k.val true).keys[j] = true ↔ j = k := by
    intro j
    rw [← keyPressed_val, keyPressed_setKey s k.val true j.val k.isLt, keyPressed_val, hkeys j, Fin.ext_iff]
    simp
  have hset := setKey_eq s k.val true
  have hf' : (s.setKey k.val true).fault = none := by rw [hset]; exact hf
  have hm' : (s.setKey k.val true).mode = .awaitingKey x := by rw [hset]; exact hm
  have hpc' : (s.setKey k.val true).pc = s.pc := by rw [hset]; rfl
  obtain ⟨u, j, hstep, hj, hx, hpc, hmode, hok, -⟩ :=
    (waitingStepResumesOnKey _ x hf' hm').1 ⟨k, (hpressed k).2 rfl⟩
  exact ⟨u, hstep, by rw [hx, (hpressed j).1 hj], by rw [hpc, hpc'], hmode, hok⟩

end

/-- Settles O52: the first step starts the wait, the others leave it, and the step after `set_key` ends it. -/
theorem keyWaitHoldsUntilKeyPressed : Obligations.KeyWaitHoldsUntilKeyPressed := by
  unfold Obligations.KeyWaitHoldsUntilKeyPressed
  intro s op x k n hf hm hfetch hdec hkeys
  have hfirst : Sys2Proof.core.step s = .next ((s.setMode (.awaitingKey x)).setStatus .blocked) :=
    step_startsWait hf hm hfetch hdec hkeys
  have hrest := run_of_blocked_wait (s := (s.setMode (.awaitingKey x)).setStatus .blocked) hf rfl rfl hkeys n
  obtain ⟨u, hresume⟩ :=
    step_setKey_of_waiting (s := (s.setMode (.awaitingKey x)).setStatus .blocked) hf rfl hkeys k
  have hframe : unchangedBut (fun p => p = .mode) s ((s.setMode (.awaitingKey x)).setStatus .blocked) :=
    unchangedBut_setStatus (unchangedBut_setMode (unchangedBut_refl (· = .mode) s) rfl _) _
  exact ⟨_, u, (core_run_succ hfirst n).trans hrest, rfl, rfl, hframe, hresume⟩

/-! ### Key skips -/

/-- Settles O49: the two skips read one flag, which is off for a value that names no key. -/
theorem keySkips : Obligations.KeySkips := by
  unfold Obligations.KeySkips
  intro s x down hnamed hunnamed
  have hdown : keyPressed s.keys (s.getV x).toNat = down := by
    by_cases h : (s.getV x).toNat < 16
    · rw [keyPressed_of_lt _ _ h, hnamed h]
    · have hge : 16 ≤ (s.getV x).toNat := Nat.le_of_not_lt h
      rw [keyPressed_of_ge _ _ hge, hunnamed hge]
  have hup : (!keyPressed s.keys (s.getV x).toNat) = true ↔ ¬ down = true := by
    rw [hdown, Bool.not_eq_true', Bool.not_eq_true]
  constructor
  · exact exec_skips rfl (by rw [hdown])
  · simpa only [ite_not] using exec_skips (i := .sknp x) rfl hup

/-! ### Timers -/

/-- A body that writes DT and ends normally. -/
theorem exec_setsDt {i : Instr} {s : State} {b : Byte} (h : exec i s = finish (s.setDt b)) :
    ∃ t, exec i s = .next t ∧ t.dt = b ∧ t.status = some .ok ∧ unchangedBut (fun p => p = .dt) s t := by
  refine ⟨_, h, rfl, rfl, unchangedBut_setStatus (fun p hp => ?_) _⟩
  cases p with
  | dt => exact absurd rfl hp
  | _ => rfl

/-- A body that writes ST and ends normally. -/
theorem exec_setsSt {i : Instr} {s : State} {b : Byte} (h : exec i s = finish (s.setSt b)) :
    ∃ t, exec i s = .next t ∧ t.st = b ∧ t.status = some .ok ∧ unchangedBut (fun p => p = .st) s t := by
  refine ⟨_, h, rfl, rfl, unchangedBut_setStatus (fun p hp => ?_) _⟩
  cases p with
  | st => exact absurd rfl hp
  | _ => rfl

theorem soundActive_iff (s : State) : s.soundActive = true ↔ 0 < s.st.toNat :=
  decide_eq_true_iff

/-- Settles O53: each moves one value and writes nothing else, and the sound follows ST. -/
theorem timerInstructionsMoveTimers : Obligations.TimerInstructionsMoveTimers := by
  unfold Obligations.TimerInstructionsMoveTimers
  refine ⟨fun s x => exec_setsV rfl, fun s x => exec_setsDt rfl, fun s x => ?_⟩
  obtain ⟨t, hexec, hst, hok, hframe⟩ := exec_setsSt (i := .ldStVx x) (s := s) rfl
  exact ⟨t, hexec, hst, hok, by rw [soundActive_iff, hst], hframe⟩

end Sys2Proof.Machine
end

section
/-! PROOF. Which instruction raises which fault: the table of 60_exceptions.md R232, and from it O12. -/

namespace Sys2Proof.Machine

/-! ### The accesses that fail -/

/-- A read of consecutive bytes fails only where it leaves memory under `Fault` (R52, R234). -/
theorem leaves_memory_of_loadBytes_error {s : State} {a n e : Nat} (h : loadBytes s a n = .error e) :
    s.params.addrPolicy = .fault ∧ n ≠ 0 ∧ 4096 < a + n := by
  obtain ⟨-, bs, hok, -⟩ | ⟨hp, hout, hn, -⟩ := loadBytes_cases s a n
  · cases hok.symm.trans h
  · exact ⟨hp, hn, hout⟩

/-- A store of consecutive bytes fails only where it leaves memory under `Fault` (R53, R234). -/
theorem leaves_memory_of_storeBytes_error {s : State} {a e : Nat} {bs : List Byte} (h : storeBytes a bs s = .error e) :
    s.params.addrPolicy = .fault ∧ bs.length ≠ 0 ∧ 4096 < a + bs.length := by
  obtain ⟨-, u, hok⟩ | ⟨hp, hout, hbs, -⟩ := storeBytes_cases bs a s
  · cases hok.symm.trans h
  · exact ⟨hp, mt List.eq_nil_of_length_eq_zero hbs, hout⟩

/-! ### The table -/

/-- The table of R232 for the bodies of the instructions: the instructions that raise a fault of the kind, and the
condition under which they do. An unknown opcode has no body, and ProgramTooLarge is a failed load's. -/
def RaisedBy (i : Instr) (s : State) : FaultKind → Prop
  | .stackUnderflow => i = .ret ∧ s.stack = []
  | .stackOverflow => (∃ nnn, i = .call nnn) ∧ 16 ≤ s.stack.length
  | .addressingError =>
    s.params.addrPolicy = .fault ∧ transferLength i ≠ 0 ∧ 4096 < baseAddr s + transferLength i
  | .unknownOpcode => False
  | .programTooLarge => False

section
variable {k : FaultKind} {i : Instr} {e : Option Nat} {s : State}

/-- A step that returns `Faulted` does not return `Ok` (R13). -/
theorem raise_ne_finish (u : State) : raise k i e s ≠ finish u :=
  fun h => nomatch congrArg State.status (Host.Outcome.next.inj h)

/-- A step that returns `Faulted` does not return `Blocked` (R13). -/
theorem raise_ne_block (u : State) : raise k i e s ≠ block u :=
  fun h => nomatch congrArg State.status (Host.Outcome.next.inj h)

theorem raise_kind_inj {k' : FaultKind} {e' : Option Nat} (h : raise k i e s = raise k' i e' s) : k = k' := by
  cases congrArg State.fault (Host.Outcome.next.inj h)
  rfl

/-- A body that raises a fault is an instruction that the table names for the kind, under the table's condition: every
other outcome of a body ends the step without a fault. -/
theorem raisedBy_of_exec (h : exec i s = raise k i e s) : RaisedBy i s k := by
  have hfinish {u} (hu : exec i s = finish u) : RaisedBy i s k := absurd (h.symm.trans hu) (raise_ne_finish u)
  have hkind {k' e'} (hk : exec i s = raise k' i e' s) (hrow : RaisedBy i s k') : RaisedBy i s k :=
    raise_kind_inj (hk.symm.trans h) ▸ hrow
  cases i with
  | ret =>
    obtain ⟨hnil, hexec⟩ | ⟨a, l, -, hexec⟩ := execRet_cases s
    · exact hkind hexec ⟨rfl, hnil⟩
    · exact hfinish hexec
  | call nnn =>
    obtain ⟨hfull, hexec⟩ | ⟨-, hexec⟩ := execCall_cases s nnn
    · exact hkind hexec ⟨⟨nnn, rfl⟩, hfull⟩
    · exact hfinish hexec
  | drw x y n =>
    obtain ⟨rows, -, hexec⟩ | ⟨a, herror, hexec⟩ := execDrw_cases s x y n
    · exact hfinish hexec
    · exact hkind hexec (leaves_memory_of_loadBytes_error herror)
  | ldVxK x =>
    obtain ⟨j, -, hexec⟩ | ⟨-, hexec⟩ := execLdVxK_cases s x
    · exact hfinish hexec
    · exact absurd (h.symm.trans hexec) (raise_ne_block _)
  | ldB x =>
    obtain ⟨u, -, hexec⟩ | ⟨a, herror, hexec⟩ := execLdB_cases s x
    · exact hfinish hexec
    · exact hkind hexec (leaves_memory_of_storeBytes_error herror)
  | ldStore x =>
    obtain ⟨u, -, hexec⟩ | ⟨a, herror, hexec⟩ := execLdStore_cases s x
    · exact hfinish hexec
    · have hout := leaves_memory_of_storeBytes_error herror
      rw [firstVs_length] at hout
      exact hkind hexec hout
  | ldLoad x =>
    obtain ⟨bs, -, hexec⟩ | ⟨a, herror, hexec⟩ := execLdLoad_cases s x
    · exact hfinish hexec
    · exact hkind hexec (leaves_memory_of_loadBytes_error herror)
  | _ => exact hfinish rfl

end

/-- Settles O12: a body that records a fault where there was none raises it, and `RaisedBy` is the table. -/
theorem faultsOnlyWhereTheTableSays : Obligations.FaultsOnlyWhereTheTableSays := by
  unfold Obligations.FaultsOnlyWhereTheTableSays
  intro i s t r hf hexec hr
  obtain ⟨u, hfinish, hsame⟩ | ⟨x, -, -, hblock⟩ | ⟨k, e, hraise⟩ := exec_cases i s
  · cases hfinish.symm.trans hexec
    exact nomatch (hsame.fault.trans hf).symm.trans hr
  · cases hblock.symm.trans hexec
    exact nomatch hf.symm.trans hr
  · have hrow := raisedBy_of_exec hraise
    cases hraise.symm.trans hexec
    cases hr
    cases k with
    | stackUnderflow => exact .inl ⟨rfl, hrow⟩
    | stackOverflow => exact .inr (.inl ⟨rfl, hrow⟩)
    | addressingError => exact .inr (.inr ⟨rfl, hrow⟩)
    | unknownOpcode | programTooLarge => exact hrow.elim

end Sys2Proof.Machine
end

section
/-! PROOF. The host's operations of 60_exceptions.md: the invariants at every place of a schedule, ticks and key
events: O19, O55 and O56. -/

namespace Sys2Proof.Machine

/-! ### Schedules -/

/-- Settles O19: the reset machine meets the invariants (O15), every operation keeps them and the parameters (O60), so
they hold at every place by the induction over a schedule. -/
theorem schedulesKeepTheInvariants : Obligations.SchedulesKeepTheInvariants := by
  unfold Obligations.SchedulesKeepTheInvariants
  rintro p s hp ⟨σ, n, rfl⟩
  refine stateAt_induction (State.initial p) (KeepsInvariants (State.initial p)) (fun u op hu => ?_) σ ?_ n
  · obtain ⟨hw, hc, hb, hparams⟩ := hu
    obtain ⟨hw', hc', hb', hkept⟩ := hostOperationsKeepTheInvariants u op hw hc hb
    exact ⟨hw', hc', hb', hkept.trans hparams⟩
  · exact ⟨initial_wf hp, initial_coherent p, initial_pcBounded p, rfl⟩

/-! ### Ticks -/

/-- The state after `n` ticks: each timer is down by `n`, never below 0, and no other field is written (R240). -/
theorem tick_iterate_eq (s : State) (n : Nat) :
    ∃ d e, State.tick^[n] s = (s.setDt d).setSt e ∧ d.toNat = s.dt.toNat - n ∧ e.toNat = s.st.toNat - n := by
  induction n with
  | zero => exact ⟨s.dt, s.st, rfl, rfl, rfl⟩
  | succ n ih =>
    obtain ⟨d, e, hticks, hd, he⟩ := ih
    refine ⟨tickTimer d, tickTimer e, ?_, ?_, ?_⟩
    · rw [Function.iterate_succ_apply', hticks]
      rfl
    · rw [tickTimer_toNat, hd, Nat.sub_sub]
    · rw [tickTimer_toNat, he, Nat.sub_sub]

theorem unchangedBut_setDt_setSt (s : State) (d e : Byte) :
    unchangedBut (fun p => p = .dt ∨ p = .st) s ((s.setDt d).setSt e) := by
  intro p hp
  cases p with
  | dt => exact absurd (.inl rfl) hp
  | st => exact absurd (.inr rfl) hp
  | _ => rfl

/-- Settles O55, by the state after `n` ticks. -/
theorem ticksCountDownToZero : Obligations.TicksCountDownToZero := by
  unfold Obligations.TicksCountDownToZero
  intro s n
  obtain ⟨d, e, hticks, hd, he⟩ := tick_iterate_eq s n
  rw [hticks]
  exact ⟨hd, he, soundActive_iff _, unchangedBut_setDt_setSt s d e⟩

/-! ### Key events -/

theorem setKey_of_ge (s : State) {k : Nat} (h : 16 ≤ k) (down : Bool) : s.setKey k down = s :=
  dif_neg h.not_gt

theorem keys_setKey_of_lt (s : State) {k : Nat} (h : k < 16) (down : Bool) (j : Key) :
    (s.setKey k down).keys[j] = if j.val = k then down else s.keys[j] := by
  rw [← keyPressed_val, keyPressed_setKey s k down j.val h, keyPressed_val]

theorem unchangedBut_setKeys (s : State) (keys : Vector Bool 16) :
    unchangedBut (fun p => p = .keys) s (s.setKeys keys) := by
  intro p hp
  cases p with
  | keys => exact absurd rfl hp
  | _ => rfl

/-- Settles O56: an index below 16 is one key's, and no key has an index of 16 or more. -/
theorem setKeySetsOneFlag : Obligations.SetKeySetsOneFlag := by
  unfold Obligations.SetKeySetsOneFlag
  intro s k down
  refine ⟨fun j => ?_, fun hge => setKey_of_ge s hge down, ?_⟩
  · obtain hlt | hge := Nat.lt_or_ge k 16
    · exact keys_setKey_of_lt s hlt down j
    · rw [setKey_of_ge s hge down, if_neg (j.isLt.trans_le hge).ne]
  · rw [setKey_eq]
    exact unchangedBut_setKeys s _

end Sys2Proof.Machine
end

section
/-! PROOF. The reset of 70_reset_and_hazards.md: what every reset that succeeds leaves, and from it O57. -/

namespace Sys2Proof.Machine

/-- A reset that succeeds leaves the fresh machine in everything but memory: a ROM too large to load makes it fail
(R270, R272). -/
theorem resetRom_ok {s t : State} {rom : List Byte} (h : s.resetRom rom = .ok t) : ∃ m, t = s.cleared.setMem m := by
  obtain hfits | hlong := le_or_gt rom.length 3584
  · obtain ⟨m, hreset, -⟩ := resetRom_mem s rom hfits
    exact ⟨m, Except.ok.inj (h.symm.trans hreset)⟩
  · exact nomatch h.symm.trans (resetRom_too_large s rom hlong)

/-- Settles O57: a reset chooses the memory only, and the fresh machine is at 0x200, running and without a fault. -/
theorem resetVectorAndMode : Obligations.ResetVectorAndMode := by
  unfold Obligations.ResetVectorAndMode
  refine ⟨fun s t rom hreset => ?_, rfl, rfl, rfl⟩
  obtain ⟨m, rfl⟩ := resetRom_ok hreset
  exact ⟨rfl, rfl, rfl⟩

end Sys2Proof.Machine
end
